-- ==== Sys2Proof/Word.lean ====
section
/-! DEFINITION. The widths of the block's values (00_scope.md R7, R10): bytes, 16-bit values and the nibbles of the
text functions. Nothing in the block is signed (R10, R139). -/

namespace Sys2Proof

/-- `u8`: a byte, a value in 0 to 255 (R10). -/
abbrev Byte := BitVec 8

/-- `u16`: an unsigned 16-bit value (R10). -/
abbrev Half := BitVec 16

/-- Half a byte, the value of one hexadecimal digit (43_hex_text.md R150). -/
abbrev Nibble := BitVec 4

end Sys2Proof
end

