-- ==== Sys2Proof/Machine/Operands.lean ====
section
/-! DEFINITION. Byte order and operand assembly: `hi8`, `lo8`, `a :: b` and `zext_16` of 00_scope.md R10, and the operand
forms of 30_encoding.md R74. -/

namespace Sys2Proof

/-- `hi8(v) = v[15:8]` (R10). -/
def hi8 (v : Half) : Byte := v.extractLsb' 8 8

/-- `lo8(v) = v[7:0]` (R10). -/
def lo8 (v : Half) : Byte := v.extractLsb' 0 8

/-- `a :: b = a*256 + b`, the first operand being the high byte (R10). -/
def cat16 (a b : Byte) : Half := a ++ b

/-- `zext_16(b)`: the byte with eight zero bits above it (R10). -/
def zext16 (b : Byte) : Half := b.setWidth 16

/-- The operand of format B from the bytes after the opcode: the one byte `imm8` (R62, R74). -/
def byteOperand : List Byte → Option Byte
  | [v] => some v
  | _ => none

/-- The operand of format H: `immHi :: immLo` (R63, R74). -/
def halfOperand : List Byte → Option Half
  | [immHi, immLo] => some (cat16 immHi immLo)
  | _ => none

/-- The operands `a, f, r, l` of format F (R64, R74). -/
def frameOperand : List Byte → Option (Byte × Byte × Half × Half)
  | [a, f, rHi, rLo, lHi, lLo] => some (a, f, cat16 rHi rLo, cat16 lHi lLo)
  | _ => none

/-- The sequence operand of format S from the bytes after the opcode: `nHi nLo` and then exactly
`n = nHi :: nLo` bytes (R65, R74); none where the length field disagrees or is cut short (R67). -/
def seqOperand : List Byte → Option (List Byte)
  | nHi :: nLo :: d => if d.length = (cat16 nHi nLo).toNat then some d else none
  | _ => none

/-- The bytes of a sequence operand, its 16-bit length high byte first (R65). -/
def seqBytes (d : List Byte) : List Byte :=
  hi8 (BitVec.ofNat 16 d.length) :: lo8 (BitVec.ofNat 16 d.length) :: d

end Sys2Proof
end

