-- ==== Sys2Proof/Config.lean ====
section
/-! DEFINITION. The parameters of the block (00_scope.md R7). The source fixes all of them but `maxSeq` (the spec's
decision D9) and FRAME_RESET, which the spec leaves open (10_state.md R34). -/

namespace Sys2Proof.Config

/-- `MAX_SEQ`, the longest sequence operand of a command in bytes (R7, R65). -/
def maxSeq : Nat := 65535

/-- The value every setter but SETFUNC forces into FUNC (R7, 40_frame_setters.md R99). -/
def forcedFunction : Byte := 0x03

/-- `POLY`, the polynomial constant of the checksum (42_crc16.md R125). -/
def crcPoly : Half := 0xA001

/-- `INIT`, the initial accumulator of the checksum (42_crc16.md R125). -/
def crcInit : Half := 0xFFFF

/-- The value of FRAME_RESET, `(ADDR, FUNC, REGH, REGL, LENH, LENL)`, that the one state `State.reset` uses.
DESIGN CHOICE (log entry 4), unsafe: the spec leaves FRAME_RESET open (10_state.md R34); these six bytes are the
instantiation R34 and R35 name. Statements about reset quantify over FRAME_RESET and never use this value. -/
def frameReset : Byte × Byte × Byte × Byte × Byte × Byte :=
  (0x00, 0x03, 0x00, 0x00, 0x00, 0x00)

end Sys2Proof.Config
end

