-- ==== Sys2Proof/Syntax.lean ====
section
/-! DEFINITION. The commands of the block: the type `Command` of 30_encoding.md R60, one constructor per row of
spec/opcode_table.json. A text is a list of bytes read as ASCII (00_scope.md R11). -/

namespace Sys2Proof

/-- A decoded command (R60). Sequence operands are lists of any length here; `Instr.wf` carries the bound MAX_SEQ. -/
inductive Instr where
  /-- SETADDR `v` (R91). -/
  | setaddr (v : Byte)
  /-- SETFUNC `v` (R92). -/
  | setfunc (v : Byte)
  /-- SETREGH `v` (R93). -/
  | setregh (v : Byte)
  /-- SETREGL `v` (R94). -/
  | setregl (v : Byte)
  /-- SETLENH `v` (R95). -/
  | setlenh (v : Byte)
  /-- SETLENL `v` (R96). -/
  | setlenl (v : Byte)
  /-- SETREG `v` (R97). -/
  | setreg (v : Half)
  /-- SETLEN `v` (R98). -/
  | setlen (v : Half)
  /-- EMIT (R113). -/
  | emit
  /-- ENCODE `a, f, r, l` (R114). -/
  | encode (a f : Byte) (r l : Half)
  /-- CRC16 `d` (R133). -/
  | crc16 (d : List Byte)
  /-- HEXENC `d` (R154). -/
  | hexenc (d : List Byte)
  /-- HEXDEC `t` (R155). -/
  | hexdec (t : List Byte)
  /-- DECODE6 `t` (R156). -/
  | decode6 (t : List Byte)
deriving DecidableEq, Repr

end Sys2Proof
end

