-- ==== Sys2Proof/WellFormed.lean ====
section
/-! DEFINITION. Which commands a byte string can spell: every operand value is legal (30_encoding.md R62 to R64), and a
sequence operand has at most MAX_SEQ bytes (R60, R65). -/

namespace Sys2Proof

/-- The sequence operand of a format S command; empty for the other formats. -/
def Instr.seq : Instr → List Byte
  | .setaddr _ => []
  | .setfunc _ => []
  | .setregh _ => []
  | .setregl _ => []
  | .setlenh _ => []
  | .setlenl _ => []
  | .setreg _ => []
  | .setlen _ => []
  | .emit => []
  | .encode _ _ _ _ => []
  | .crc16 d => d
  | .hexenc d => d
  | .hexdec t => t
  | .decode6 t => t

/-- A command that the encoding can spell: `len(d)`, `len(t)` at most MAX_SEQ (R60). -/
def Instr.wf (i : Instr) : Bool :=
  decide (i.seq.length ≤ Config.maxSeq)

end Sys2Proof
end

