-- ==== Sys2Proof/Decode.lean ====
section
/-! DEFINITION. The opcode map, the decoder and the encoder (30_encoding.md R60 to R69, R74). Decoding is total: every
byte string spells one command or is rejected by name with the reason R67 gives. -/

namespace Sys2Proof

/-- The five command formats (R61 to R65). -/
inductive Format where
  | N | B | H | F | S
deriving DecidableEq, Repr

/-- The fourteen opcodes of R66. -/
inductive Op where
  | setaddr | setfunc | setregh | setregl | setlenh | setlenl | setreg | setlen
  | emit | encode | crc16 | hexenc | hexdec | decode6
deriving DecidableEq, Repr

/-- The opcode byte (R66). -/
def Op.byte : Op → Byte
  | .setaddr => 0x10
  | .setfunc => 0x11
  | .setregh => 0x12
  | .setregl => 0x13
  | .setlenh => 0x14
  | .setlenl => 0x15
  | .setreg => 0x18
  | .setlen => 0x19
  | .emit => 0x20
  | .encode => 0x21
  | .crc16 => 0x30
  | .hexenc => 0x40
  | .hexdec => 0x41
  | .decode6 => 0x42

/-- The format of an opcode (R66). -/
def Op.format : Op → Format
  | .setaddr => .B
  | .setfunc => .B
  | .setregh => .B
  | .setregl => .B
  | .setlenh => .B
  | .setlenl => .B
  | .setreg => .H
  | .setlen => .H
  | .emit => .N
  | .encode => .F
  | .crc16 => .S
  | .hexenc => .S
  | .hexdec => .S
  | .decode6 => .S

/-- Every opcode, in the order of R66. -/
def Op.all : List Op :=
  [.setaddr, .setfunc, .setregh, .setregl, .setlenh, .setlenl, .setreg, .setlen,
   .emit, .encode, .crc16, .hexenc, .hexdec, .decode6]

/-- The opcode a byte spells, none for the 242 reserved values (R66). -/
def opOf (b : Byte) : Option Op :=
  Op.all.find? (fun o => o.byte == b)

/-- The one legal length of a whole command of a format, `n` being the length field of format S (R61 to R65). -/
def Format.length (n : Half) : Format → Nat
  | .N => 1
  | .B => 2
  | .H => 3
  | .F => 7
  | .S => 3 + n.toNat

/-- The opcode of a command (R66). -/
def Instr.op : Instr → Op
  | .setaddr _ => .setaddr
  | .setfunc _ => .setfunc
  | .setregh _ => .setregh
  | .setregl _ => .setregl
  | .setlenh _ => .setlenh
  | .setlenl _ => .setlenl
  | .setreg _ => .setreg
  | .setlen _ => .setlen
  | .emit => .emit
  | .encode _ _ _ _ => .encode
  | .crc16 _ => .crc16
  | .hexenc _ => .hexenc
  | .hexdec _ => .hexdec
  | .decode6 _ => .decode6

/-- Why a byte string spells no command (R67, R68). -/
inductive DecodeError where
  /-- The byte string is empty. -/
  | empty
  /-- Its first byte is one of the 242 reserved opcodes. -/
  | reserved (op : Byte)
  /-- Its first byte is a defined opcode and its length is not the one the format requires. -/
  | wrongLength (op : Byte)
deriving DecidableEq, Repr

/-- The info an IllegalCommand carries (R67, R71). -/
def DecodeError.info : DecodeError → Half
  | .empty => 0x0000
  | .reserved op => 0x0100 + zext16 op
  | .wrongLength op => 0x0200 + zext16 op

/-- Operand assembly (R74): the command of an opcode from the bytes after it, none where their number is not the one the
opcode's format requires (R67). -/
def operandsOf (o : Op) (bs : List Byte) : Option Instr :=
  match o with
  | .setaddr => (byteOperand bs).map .setaddr
  | .setfunc => (byteOperand bs).map .setfunc
  | .setregh => (byteOperand bs).map .setregh
  | .setregl => (byteOperand bs).map .setregl
  | .setlenh => (byteOperand bs).map .setlenh
  | .setlenl => (byteOperand bs).map .setlenl
  | .setreg => (halfOperand bs).map .setreg
  | .setlen => (halfOperand bs).map .setlen
  | .emit => if bs.isEmpty then some .emit else none
  | .encode => (frameOperand bs).map (fun p => .encode p.1 p.2.1 p.2.2.1 p.2.2.2)
  | .crc16 => (seqOperand bs).map .crc16
  | .hexenc => (seqOperand bs).map .hexenc
  | .hexdec => (seqOperand bs).map .hexdec
  | .decode6 => (seqOperand bs).map .decode6

/-- The decoding procedure of R67; the first failing test decides. It reads no state. -/
def decode : List Byte → Except DecodeError Instr
  | [] => .error .empty
  | op :: operands =>
    match opOf op with
    | none => .error (.reserved op)
    | some o =>
      match operandsOf o operands with
      | none => .error (.wrongLength op)
      | some i => .ok i

/-- The operand bytes of a command, in the order of its format (R62 to R65). -/
def operandBytes : Instr → List Byte
  | .setaddr v => [v]
  | .setfunc v => [v]
  | .setregh v => [v]
  | .setregl v => [v]
  | .setlenh v => [v]
  | .setlenl v => [v]
  | .setreg v => [hi8 v, lo8 v]
  | .setlen v => [hi8 v, lo8 v]
  | .emit => []
  | .encode a f r l => [a, f, hi8 r, lo8 r, hi8 l, lo8 l]
  | .crc16 d => seqBytes d
  | .hexenc d => seqBytes d
  | .hexdec t => seqBytes t
  | .decode6 t => seqBytes t

/-- The byte string that spells a command: the opcode and then the operands (R60). -/
def encode (i : Instr) : List Byte :=
  i.op.byte :: operandBytes i

/-- The legal length of a command whose first byte is `op` and whose next two bytes, read as a length field, are `n`; 1 for
a reserved opcode (which is reserved at every length). -/
def legalLength (op : Byte) (n : Half) : Nat :=
  match opOf op with
  | some o => o.format.length n
  | none => 1

/-- Byte `k` of an instruction whose bits are `w`, bit 0 being the least significant bit of the first byte. -/
def tableByte (w k : Nat) : Byte := BitVec.ofNat 8 (w >>> (8 * k))

/-- The delimited byte string of an instruction that spec/opcode_table.json numbers as `nbits` bits with value `w`: those
bits, and operand bytes of zero up to the length the opcode and its length field make legal (log entry 12). -/
def tableBytes (nbits w : Nat) : List Byte :=
  let v := w % 2 ^ nbits
  let n := legalLength (tableByte v 0) (cat16 (tableByte v 1) (tableByte v 2))
  (List.range (max (nbits / 8) n)).map (tableByte v)

/-- The command the decoder reads from an instruction given by the opcode table's bit numbering. -/
def decodeTableWord (nbits w : Nat) : Option Instr :=
  match decode (tableBytes nbits w) with
  | .ok i => some i
  | .error _ => none

end Sys2Proof
end

