-- ==== Sys2Proof/Machine/Flags.lean ====
section
/-! DEFINITION. The block has no status flag, condition code or predicate (10_state.md R28): no command computes one. What
tells success from error is the status byte that opens a response (30_encoding.md R70, R71). -/

namespace Sys2Proof.Machine

/-- The two error causes of the block (60_exceptions.md R176, R177). -/
inductive ErrorCause where
  | illegalCommand
  | malformedHex
deriving DecidableEq, Repr

/-- The status byte of a success response (R70). -/
def statusOk : Byte := 0x00

/-- `code(E)`, the status byte of an error response (R71). -/
def ErrorCause.code : ErrorCause → Byte
  | .illegalCommand => 0x01
  | .malformedHex => 0x02

end Sys2Proof.Machine
end

