-- ==== Sys2Proof/Machine/State.lean ====
section
/-! DEFINITION. The state of the block: the six Frame registers (10_state.md R20), beside them the data of its interfaces
(00_scope.md R9) and the parameter FRAME_RESET (R33, R34), and the machine right after reset (70_reset_and_hazards.md
R200, R201). -/

namespace Sys2Proof.Machine

/-- The names of the six Frame registers, in index order (R25). -/
inductive FrameReg where
  | addr | func | regH | regL | lenH | lenL
deriving DecidableEq, Repr

/-- The Frame: the tuple `(ADDR, FUNC, REGH, REGL, LENH, LENL)` of 8-bit registers (R20). -/
structure Frame where
  /-- ADDR, `F[0]` (R21). -/
  addr : Byte
  /-- FUNC, `F[1]` (R22). -/
  func : Byte
  /-- REGH, `F[2]`, bits 15 to 8 of the register field (R23). -/
  regH : Byte
  /-- REGL, `F[3]`, bits 7 to 0 of the register field (R23). -/
  regL : Byte
  /-- LENH, `F[4]`, bits 15 to 8 of the length field (R24). -/
  lenH : Byte
  /-- LENL, `F[5]`, bits 7 to 0 of the length field (R24). -/
  lenL : Byte
deriving DecidableEq, Repr

/-- The Frame whose registers, in index order, are the six bytes of a tuple (R34). -/
def Frame.ofTuple (t : Byte × Byte × Byte × Byte × Byte × Byte) : Frame :=
  ⟨t.1, t.2.1, t.2.2.1, t.2.2.2.1, t.2.2.2.2.1, t.2.2.2.2.2⟩

/-- One event the host raises between steps: a command on the command port, as one delimited byte string, or a reset
(R9). -/
inductive PortEvent where
  | command (cmd : List Byte)
  | reset
deriving DecidableEq, Repr

/-- The state. `frame` is the whole state the spec gives the block (R20); the other fields hold what its interfaces carry
and its one open parameter, because a step of the model takes nothing but a state (log entries 1, 2 and 4). -/
structure State where
  /-- The six Frame registers (R20). -/
  frame : Frame
  /-- The byte string the response port returned for the last event, none where it returned none (R9, R200). -/
  response : Option (List Byte)
  /-- What the host presents next, first event first (R9, R48). -/
  port : List PortEvent
  /-- The parameter FRAME_RESET (R34); no step writes it. -/
  frameReset : Frame
deriving DecidableEq, Repr

/-- The machine right after reset where FRAME_RESET is `fr`: the registers hold it, no response is pending, and the block
holds no program (R27, R34, R200, R201). -/
def State.resetWith (fr : Frame) : State :=
  { frame := fr, response := none, port := [], frameReset := fr }

/-- The machine right after reset, for the value of FRAME_RESET that log entry 4 names. -/
def State.reset : State := State.resetWith (Frame.ofTuple Config.frameReset)

/-- Why the machine stops with a fault. There is no constructor: a step of the block has exactly two outcomes, `Ok` and
`Err`, and both go on (60_exceptions.md R175). -/
inductive Fault where
deriving DecidableEq, Repr

/-- Why an instruction has no meaning. -/
inductive Refusal where
  /-- Raised by an arm of `exec` whose instruction has no meaning yet; safe. No arm of this model raises it. -/
  | notModelled (mnemonic : String)
deriving DecidableEq, Repr

end Sys2Proof.Machine
end

