-- ==== Sys2Proof/Machine/Ops.lean ====
section
/-! DEFINITION. The operations every command is written over: reading and writing a Frame register, the coupling rule, the
success response, raising an error, and reset. -/

namespace Sys2Proof.Machine

/-- The outcome type of every meaning. -/
abbrev Result := Host.Outcome State Fault Refusal

/-- The index of a Frame register (10_state.md R25). -/
def FrameReg.index : FrameReg → Nat
  | .addr => 0
  | .func => 1
  | .regH => 2
  | .regL => 3
  | .lenH => 4
  | .lenL => 5

/-- `F[i]`, a Frame register's value (R12, R25). -/
def State.readReg (s : State) : FrameReg → Byte
  | .addr => s.frame.addr
  | .func => s.frame.func
  | .regH => s.frame.regH
  | .regL => s.frame.regL
  | .lenH => s.frame.lenH
  | .lenL => s.frame.lenL

/-- `F[i] <- v` (R12): the one register changes. -/
def State.writeReg (s : State) (r : FrameReg) (v : Byte) : State :=
  match r with
  | .addr => { s with frame := { s.frame with addr := v } }
  | .func => { s with frame := { s.frame with func := v } }
  | .regH => { s with frame := { s.frame with regH := v } }
  | .regL => { s with frame := { s.frame with regL := v } }
  | .lenH => { s with frame := { s.frame with lenH := v } }
  | .lenL => { s with frame := { s.frame with lenL := v } }

/-- `REG = REGH :: REGL`, the 16-bit register field (R23). -/
def State.reg (s : State) : Half := cat16 (s.readReg .regH) (s.readReg .regL)

/-- `LEN = LENH :: LENL`, the 16-bit length field (R24). -/
def State.len (s : State) : Half := cat16 (s.readReg .lenH) (s.readReg .lenL)

/-- The coupling rule (40_frame_setters.md R99): FUNC is forced to 0x03, whatever it held. The spec picks "every set" over
"every change" on an ambiguous source (90_conflicts.md C2; log entry 8). -/
def State.forceFunction (s : State) : State := s.writeReg .func Config.forcedFunction

/-- What the response port returns for this step (R9). -/
def State.respond (s : State) (rsp : List Byte) : State := { s with response := some rsp }

/-- `respond Ok(bs)`: the step ends with the status byte of success and the payload (30_encoding.md R70). -/
def respondOk (bs : List Byte) (s : State) : Result := .next (s.respond (statusOk :: bs))

/-- The byte string of an error response: `[code(E), hi8(info), lo8(info)]` (30_encoding.md R71). -/
def errorResponse (e : ErrorCause) (info : Half) : List Byte := [e.code, hi8 info, lo8 info]

/-- `raise E(info)`: the ONE way a step ends in an error (60_exceptions.md R175, R181, R182). The error response is the only
effect: nothing is saved, no vector is taken, no register is written, and there is nothing to return from. -/
def raiseError (e : ErrorCause) (info : Half) (s : State) : Result :=
  .next (s.respond (errorResponse e info))

/-- A presented byte string that spells no command (60_exceptions.md R176). -/
def raiseIllegal (e : DecodeError) (s : State) : Result := raiseError .illegalCommand e.info s

/-- Reset (70_reset_and_hazards.md R200): the registers take FRAME_RESET; it produces no response, and none from before it
is pending after it. -/
def applyReset (s : State) : State := { s with frame := s.frameReset, response := none }

/-- The block where the host presents nothing: no register changes (41_frame_encode.md R112) and nothing is returned
(log entry 3). -/
def idle (s : State) : State := s

end Sys2Proof.Machine
end

