-- ==== Sys2Proof/Machine/FrameProducers.lean ====
section
/-! DEFINITION. The frame producers (41_frame_encode.md R110 to R114): the header, the 8-byte frame, the FRAME output, EMIT
and ENCODE. -/

namespace Sys2Proof.Machine

/-- `header6(a, f, r, l)`: the 6 header bytes, each 16-bit field high byte first (R110; 20_memory.md R41). -/
def header6 (a f : Byte) (r l : Half) : List Byte := [a, f, hi8 r, lo8 r, hi8 l, lo8 l]

/-- `encode8(a, f, r, l)`: the header and its CRC, low byte first (R111; 20_memory.md R42). -/
def encode8 (a f : Byte) (r l : Half) : List Byte :=
  let h := header6 a f r l
  h ++ [lo8 (crc16 h), hi8 (crc16 h)]

/-- The FRAME output (R112): between steps, a function of the six registers and of nothing else. -/
def State.frameOut (s : State) : List Byte :=
  encode8 (s.readReg .addr) (s.readReg .func) s.reg s.len

/-- EMIT (R113): the frame of the registers; nothing is written. -/
def execEmit (s : State) : Result := respondOk s.frameOut s

/-- ENCODE `a, f, r, l` (R114): the frame of the operands; no register is read or written, and FUNC is not forced. -/
def execEncode (a f : Byte) (r l : Half) (s : State) : Result :=
  respondOk (encode8 a f r l) s

end Sys2Proof.Machine
end

