-- ==== Sys2Proof/Machine/HexText.lean ====
section
/-! DEFINITION. The text functions (43_hex_text.md R150 to R156): hexadecimal text, HEXENC, HEXDEC and DECODE6. ASCII, both
letter cases in and upper case out are the spec's decisions (log entry 9), and so is what DECODE6 does with a text of
another length (log entry 10). -/

namespace Sys2Proof.Machine

/-- `hexval`, none on the 234 characters that are non-hex (R150). -/
def hexval (b : Byte) : Option Nibble :=
  if 0x30 ≤ b ∧ b ≤ 0x39 then some ((b - 0x30).setWidth 4)
  else if 0x41 ≤ b ∧ b ≤ 0x46 then some ((b - 0x41 + 10).setWidth 4)
  else if 0x61 ≤ b ∧ b ≤ 0x66 then some ((b - 0x61 + 10).setWidth 4)
  else none

/-- `hexchar`, the upper-case digit of a nibble (R150). -/
def hexchar (n : Nibble) : Byte :=
  if n < 10 then 0x30 + n.setWidth 8 else 0x41 + n.setWidth 8 - 10

/-- The two digits of a byte, high nibble first (R151). -/
def hexPair (b : Byte) : List Byte := [hexchar (b.extractLsb' 4 4), hexchar (b.extractLsb' 0 4)]

/-- `hexenc(bs)` (R151). -/
def hexenc (bs : List Byte) : List Byte := bs.flatMap hexPair

/-- The smallest index of a non-hex character (R152). -/
def firstNonHex (t : List Byte) : Option Nat := t.findIdx? (fun b => (hexval b).isNone)

/-- `[v[0]*16 + v[1], v[2]*16 + v[3], ...]` (R152). -/
def pairNibbles : List Nibble → List Byte
  | hi :: lo :: rest => (hi ++ lo) :: pairNibbles rest
  | _ => []

/-- An odd number of nibbles gets a zero in front, so that the first digit stands alone (R153). -/
def padNibbles (v : List Nibble) : List Nibble := if v.length % 2 = 1 then 0 :: v else v

/-- `hexdec(t)` (R152, R153): the bytes, or the index of the first non-hex character. -/
def hexdec (t : List Byte) : Except Nat (List Byte) :=
  match firstNonHex t with
  | some i => .error i
  | none => .ok (pairNibbles (padNibbles (t.filterMap hexval)))

/-- The info of the error DECODE6 raises where the digits do not decode to 6 bytes (R156, R177). -/
def notSixBytes : Half := 0xFFFF

/-- HEXENC `d` (R154). -/
def execHexenc (d : List Byte) (s : State) : Result := respondOk (hexenc d) s

/-- HEXDEC `t` (R155). -/
def execHexdec (t : List Byte) (s : State) : Result :=
  match hexdec t with
  | .error i => raiseError .malformedHex (BitVec.ofNat 16 i) s
  | .ok bs => respondOk bs s

/-- The fields of a 6-byte header, big-endian per field; none for another number of bytes (R156). -/
def fieldsOf (bs : List Byte) : Option (Byte × Byte × Half × Half) := frameOperand bs

/-- DECODE6 `t` (R156): the four fields in header order; the Frame is not loaded. -/
def execDecode6 (t : List Byte) (s : State) : Result :=
  match hexdec t with
  | .error i => raiseError .malformedHex (BitVec.ofNat 16 i) s
  | .ok bs =>
    match fieldsOf bs with
    | none => raiseError .malformedHex notSixBytes s
    | some (a, f, r, l) => respondOk [a, f, hi8 r, lo8 r, hi8 l, lo8 l] s

end Sys2Proof.Machine
end

