-- ==== Sys2Proof/Machine/Setters.lean ====
section
/-! DEFINITION. The Frame setters (40_frame_setters.md R90 to R99). -/

namespace Sys2Proof.Machine

/-- SETADDR `v` (R91). -/
def execSetaddr (v : Byte) (s : State) : Result :=
  respondOk [] (s.writeReg .addr v).forceFunction

/-- SETFUNC `v` (R92): FUNC alone is written, and nothing is forced. -/
def execSetfunc (v : Byte) (s : State) : Result :=
  respondOk [] (s.writeReg .func v)

/-- SETREGH `v` (R93). -/
def execSetregh (v : Byte) (s : State) : Result :=
  respondOk [] (s.writeReg .regH v).forceFunction

/-- SETREGL `v` (R94). -/
def execSetregl (v : Byte) (s : State) : Result :=
  respondOk [] (s.writeReg .regL v).forceFunction

/-- SETLENH `v` (R95). -/
def execSetlenh (v : Byte) (s : State) : Result :=
  respondOk [] (s.writeReg .lenH v).forceFunction

/-- SETLENL `v` (R96). -/
def execSetlenl (v : Byte) (s : State) : Result :=
  respondOk [] (s.writeReg .lenL v).forceFunction

/-- SETREG `v` (R97): both halves and FUNC in one step. -/
def execSetreg (v : Half) (s : State) : Result :=
  respondOk [] ((s.writeReg .regH (hi8 v)).writeReg .regL (lo8 v)).forceFunction

/-- SETLEN `v` (R98): both halves and FUNC in one step. -/
def execSetlen (v : Half) (s : State) : Result :=
  respondOk [] ((s.writeReg .lenH (hi8 v)).writeReg .lenL (lo8 v)).forceFunction

end Sys2Proof.Machine
end

