-- ==== Sys2Proof/Machine/Dispatch.lean ====
section
/-! DEFINITION. The dispatch: one arm per constructor of Instr (30_encoding.md R66). -/

namespace Sys2Proof.Machine

/-- The execution of a decoded command. -/
def exec (i : Instr) (s : State) : Host.Outcome State Fault Refusal :=
  match i with
  | .setaddr v => Sys2Proof.Machine.execSetaddr v s
  | .setfunc v => Sys2Proof.Machine.execSetfunc v s
  | .setregh v => Sys2Proof.Machine.execSetregh v s
  | .setregl v => Sys2Proof.Machine.execSetregl v s
  | .setlenh v => Sys2Proof.Machine.execSetlenh v s
  | .setlenl v => Sys2Proof.Machine.execSetlenl v s
  | .setreg v => Sys2Proof.Machine.execSetreg v s
  | .setlen v => Sys2Proof.Machine.execSetlen v s
  | .emit => Sys2Proof.Machine.execEmit s
  | .encode a f r l => Sys2Proof.Machine.execEncode a f r l s
  | .crc16 d => Sys2Proof.Machine.execCrc16 d s
  | .hexenc d => Sys2Proof.Machine.execHexenc d s
  | .hexdec t => Sys2Proof.Machine.execHexdec t s
  | .decode6 t => Sys2Proof.Machine.execDecode6 t s

end Sys2Proof.Machine
end

