-- ==== Sys2Proof/Machine/Step.lean ====
section
/-! DEFINITION. One step of the machine: the next event the host raises is taken from the port (00_scope.md R8, R9; 20_memory.md
R48). -/

namespace Sys2Proof.Machine

/-- The block answers one delimited byte string: it decodes it and executes the command, or raises IllegalCommand
(30_encoding.md R67, R68). -/
def runCommand (cmd : List Byte) (s : State) : Result :=
  match decode cmd with
  | .ok i => exec i s
  | .error e => raiseIllegal e s

/-- One step: a command is executed whole, a reset is applied, and without an event the block stays as it is. -/
def step (s : State) : Host.Outcome State Fault Refusal :=
  match s.port with
  | [] => .next (idle s)
  | .reset :: rest => .next (applyReset { s with port := rest })
  | .command cmd :: rest => runCommand cmd { s with port := rest }

/-- The state in which the host presents, before anything else, the instruction that the opcode table numbers as `nbits`
bits with value `w` (log entries 5 and 12). -/
def State.withFetchWord (s : State) (nbits w : Nat) : State :=
  { s with port := .command (tableBytes nbits w) :: s.port }

end Sys2Proof.Machine
end

