-- ==== Sys2Proof/Machine/Pseudo.lean ====
section
/-! DEFINITION. The pseudo-instructions of 30_encoding.md R73, each an abbreviation for a sequence of real commands, and the
execution of a sequence of commands one after the other (20_memory.md R48). -/

namespace Sys2Proof.Machine

/-- The four pseudo-instructions (R73). -/
inductive Pseudo where
  | loadframe (a f : Byte) (r l : Half)
  | loadread (a : Byte) (r l : Half)
  | setregb (hi lo : Byte)
  | setlenb (hi lo : Byte)
deriving DecidableEq, Repr

/-- The expansion of a pseudo-instruction, in its order (R73). -/
def Pseudo.expand : Pseudo → List Instr
  | .loadframe a f r l => [.setaddr a, .setreg r, .setlen l, .setfunc f]
  | .loadread a r l => [.setaddr a, .setreg r, .setlen l]
  | .setregb hi lo => [.setregh hi, .setregl lo]
  | .setlenb hi lo => [.setlenh hi, .setlenl lo]

/-- The commands of a sequence executed in order, each from the state the one before it left. -/
def execSeq : List Instr → State → Result
  | [], s => .next s
  | i :: is, s =>
    match exec i s with
    | .next t => execSeq is t
    | .fault r => .fault r
    | .refused r => .refused r

/-- The events by which a host presents a sequence of commands. -/
def presented (is : List Instr) : List PortEvent := is.map (fun i => .command (encode i))

end Sys2Proof.Machine
end

