-- ==== Sys2Proof/Machine/Assembler.lean ====
section
/-! DEFINITION. The notation of 30_encoding.md R72 for commands: a mnemonic and its operands separated by commas, one
command a line, `;` opening a comment; and of R73 for pseudo-instructions. It is no part of the block: it turns text into
the byte strings a host presents. What R72 leaves open (blanks, letter case of the digits) is log entry 15. -/

namespace Sys2Proof.Machine.Asm

/-- The double quote that opens and closes a text. -/
def quote : Char := Char.ofNat 34

/-- A blank between the parts of a line. -/
def isBlank (c : Char) : Bool := c == ' ' || c == '\t'

/-- The line without the blanks at its ends. -/
def trim (l : List Char) : List Char :=
  ((l.dropWhile isBlank).reverse.dropWhile isBlank).reverse

/-- The line up to a `;` that stands outside a text; `q` says whether a text is open. -/
def stripComment (q : Bool) : List Char → List Char
  | [] => []
  | c :: cs =>
    if !q && c == ';' then [] else c :: stripComment (if c == quote then !q else q) cs

/-- The parts of a line between separators that stand outside a text; `cur` is the open part, last character first. -/
def splitAtSep (sep : Char) (q : Bool) (cur : List Char) : List Char → List (List Char)
  | [] => [cur.reverse]
  | c :: cs =>
    if !q && c == sep then cur.reverse :: splitAtSep sep q [] cs
    else splitAtSep sep (if c == quote then !q else q) (c :: cur) cs

/-- The words of a line, separated by blanks. -/
def words (l : List Char) : List (List Char) :=
  (splitAtSep ' ' false [] (l.map (fun c => if isBlank c then ' ' else c))).filter (fun w => !w.isEmpty)

/-- The ASCII code of a character (00_scope.md R11). -/
def asciiByte (c : Char) : Option Byte :=
  if c.toNat < 128 then some (BitVec.ofNat 8 c.toNat) else none

/-- The value of a digit in a base up to 16. -/
def digit (base : Nat) (c : Char) : Option Nat := do
  let v ← hexval (← asciiByte c)
  if v.toNat < base then some v.toNat else none

/-- A non-empty string of digits as a number. -/
def digits (base : Nat) : List Char → Option Nat
  | [] => none
  | cs => cs.foldlM (fun acc c => (digit base c).map (fun d => acc * base + d)) 0

/-- A number in `0x` hexadecimal or in decimal. -/
def number : List Char → Option Nat
  | '0' :: 'x' :: cs => digits 16 cs
  | cs => digits 10 cs

/-- A `u8` or `u16` operand: a number of at most `w` bits. -/
def unsigned (w : Nat) (cs : List Char) : Option (BitVec w) := do
  let n ← number cs
  if n < 2 ^ w then some (BitVec.ofNat w n) else none

/-- A two-digit hexadecimal byte. -/
def hexByte : List Char → Option Byte
  | [h, l] => (digits 16 [h, l]).map (BitVec.ofNat 8)
  | _ => none

/-- A byte sequence `[b0 b1 ...]`, `[]` being the empty one. -/
def sequence (cs : List Char) : Option (List Byte) :=
  match cs with
  | '[' :: rest =>
    match rest.reverse with
    | ']' :: inner => (words inner.reverse).mapM hexByte
    | _ => none
  | _ => none

/-- A text in double quotes. -/
def text (cs : List Char) : Option (List Byte) :=
  match cs with
  | q :: rest =>
    match rest.reverse with
    | q' :: inner =>
      if q == quote && q' == quote && !inner.contains quote then inner.reverse.mapM asciiByte else none
    | [] => none
  | [] => none

/-- The mnemonic of an opcode (R66). -/
def mnemonic : Op → String
  | .setaddr => "SETADDR"
  | .setfunc => "SETFUNC"
  | .setregh => "SETREGH"
  | .setregl => "SETREGL"
  | .setlenh => "SETLENH"
  | .setlenl => "SETLENL"
  | .setreg => "SETREG"
  | .setlen => "SETLEN"
  | .emit => "EMIT"
  | .encode => "ENCODE"
  | .crc16 => "CRC16"
  | .hexenc => "HEXENC"
  | .hexdec => "HEXDEC"
  | .decode6 => "DECODE6"

/-- The one operand of a command that has one. -/
def theOperand (args : List (List Char)) : Option (List Char) :=
  match args with
  | [x] => some x
  | _ => none

/-- The fields of a frame, `a, f, r, l`. -/
def fields (args : List (List Char)) : Option (Byte × Byte × Half × Half) :=
  match args with
  | [a, f, r, l] => do some (← unsigned 8 a, ← unsigned 8 f, ← unsigned 16 r, ← unsigned 16 l)
  | _ => none

/-- A command from its mnemonic and its operands (R72). -/
def command (o : Op) (args : List (List Char)) : Option Instr :=
  let u8 := theOperand args >>= unsigned 8
  let u16 := theOperand args >>= unsigned 16
  let bytes := theOperand args >>= sequence
  let chars := theOperand args >>= text
  match o with
  | .setaddr => u8.map .setaddr
  | .setfunc => u8.map .setfunc
  | .setregh => u8.map .setregh
  | .setregl => u8.map .setregl
  | .setlenh => u8.map .setlenh
  | .setlenl => u8.map .setlenl
  | .setreg => u16.map .setreg
  | .setlen => u16.map .setlen
  | .emit => if args.isEmpty then some .emit else none
  | .encode => (fields args).map (fun p => .encode p.1 p.2.1 p.2.2.1 p.2.2.2)
  | .crc16 => bytes.map .crc16
  | .hexenc => bytes.map .hexenc
  | .hexdec => chars.map .hexdec
  | .decode6 => chars.map .decode6

/-- A pseudo-instruction from its name and its operands (R73). -/
def pseudo (name : List Char) (args : List (List Char)) : Option Pseudo :=
  if name = "LOADFRAME".toList then
    (fields args).map (fun p => .loadframe p.1 p.2.1 p.2.2.1 p.2.2.2)
  else if name = "LOADREAD".toList then
    match args with
    | [a, r, l] => do some (.loadread (← unsigned 8 a) (← unsigned 16 r) (← unsigned 16 l))
    | _ => none
  else if name = "SETREGB".toList then
    match args with
    | [hi, lo] => do some (.setregb (← unsigned 8 hi) (← unsigned 8 lo))
    | _ => none
  else if name = "SETLENB".toList then
    match args with
    | [hi, lo] => do some (.setlenb (← unsigned 8 hi) (← unsigned 8 lo))
    | _ => none
  else none

/-- The commands a mnemonic or a pseudo-instruction stands for, those alone that the encoding can spell. -/
def commands (name : List Char) (args : List (List Char)) : Option (List Instr) :=
  let is :=
    match Op.all.find? (fun o => (mnemonic o).toList == name) with
    | some o => (command o args).map (fun i => [i])
    | none => (pseudo name args).map Pseudo.expand
  is.filter (fun is => is.all Instr.wf)

/-- The byte strings one line stands for: none for a blank line, several for a pseudo-instruction; `.bytes` and `.empty`
write raw command byte strings (R72). -/
def line (l : List Char) : Option (List (List Byte)) :=
  let l := trim (stripComment false l)
  let name := l.takeWhile (fun c => !isBlank c)
  let rest := trim (l.dropWhile (fun c => !isBlank c))
  if l.isEmpty then some []
  else if name = ".empty".toList then if rest.isEmpty then some [[]] else none
  else if name = ".bytes".toList then
    if rest.isEmpty then none else ((words rest).mapM hexByte).map (fun bs => [bs])
  else
    let args := if rest.isEmpty then [] else (splitAtSep ',' false [] rest).map trim
    (commands name args).map (fun is => is.map encode)

/-- The events a program in the notation of R72 stands for, one command a line; a quote is no quote across lines. -/
def program (src : List Char) : Option (List PortEvent) :=
  ((src.splitOn '\n').mapM line).map (fun ls => ls.flatten.map PortEvent.command)

end Sys2Proof.Machine.Asm
end

