-- ==== Sys2Proof/Safety.lean ====
section
/-! DEFINITION. What counts as a safe run, in the terms the statements use: a run that goes on, a response the
block may produce (30_encoding.md R70, R71), and the invariant over states. -/

namespace Sys2Proof.Machine

/-- `k` steps from `s` go on (60_exceptions.md R175). -/
def SafeRun (k : Nat) (s : State) : Prop := ∃ t, Host.Core.run Sys2Proof.core k s = .next t

/-- The infos IllegalCommand carries (R71): 0x0000, 0x0100 + a reserved opcode, 0x0200 + a defined opcode. -/
def illegalInfo (info : Half) : Bool :=
  info == 0 || (hi8 info == 1 && (opOf (lo8 info)).isNone) || (hi8 info == 2 && (opOf (lo8 info)).isSome)

/-- A byte string the response port may return: `[0x00] ++ payload`, or three bytes with status 0x01 and an info of
IllegalCommand, or three bytes with status 0x02; never another status (R70, R71). -/
def legalResponse : List Byte → Bool
  | [] => false
  | 0x00#8 :: _ => true
  | [0x01#8, h, l] => illegalInfo (cat16 h l)
  | [0x02#8, _, _] => true
  | _ => false

/-- The invariant every step keeps: what the response port returned is a response the block may produce. -/
def ResponseInv (s : State) : Prop := ∀ r, s.response = some r → legalResponse r = true

/-- The event is a command whose bytes decode to `i`. -/
def Presents (s : State) (i : Instr) (rest : List PortEvent) : Prop :=
  ∃ cmd, s.port = .command cmd :: rest ∧ decode cmd = .ok i

end Sys2Proof.Machine
end

