-- ==== Sys2Proof/Certificates/Slice0/Obligations.lean ====
section
/-! DEFINITION. The statements for the provers, from the numbered rules of spec/. A statement whose rule is marked as an
inference of the spec, or that rests on a choice of the model, says so in its docstring. The outcome of a command is given
as the whole next state, so that each statement of a command's effect is also its frame and its completion. -/

namespace Sys2Proof.Claims

open Sys2Proof Sys2Proof.Machine

/-- The opcodes of 30_encoding.md R66, as numbers. -/
def definedOpcodes : List Byte :=
  [0x10, 0x11, 0x12, 0x13, 0x14, 0x15, 0x18, 0x19, 0x20, 0x21, 0x30, 0x40, 0x41, 0x42]

/-- The length test of 30_encoding.md R67 for a command that opens with opcode `op`. -/
def LengthOk (op : Byte) (cmd : List Byte) : Prop :=
  if op = 0x20 then cmd.length = 1
  else if op ∈ ([0x10, 0x11, 0x12, 0x13, 0x14, 0x15] : List Byte) then cmd.length = 2
  else if op ∈ ([0x18, 0x19] : List Byte) then cmd.length = 3
  else if op = 0x21 then cmd.length = 7
  else ∃ nHi nLo d, cmd = op :: nHi :: nLo :: d ∧ cmd.length = 3 + (nHi.toNat * 256 + nLo.toNat)

/-- The eight setters (40_frame_setters.md). -/
def isSetter : Instr → Bool
  | .setaddr _ | .setfunc _ | .setregh _ | .setregl _ | .setlenh _ | .setlenl _ | .setreg _ | .setlen _ => true
  | .emit | .encode _ _ _ _ | .crc16 _ | .hexenc _ | .hexdec _ | .decode6 _ => false

/-- The seven setters of an addressing or length field: every setter but SETFUNC (R99). -/
def isFieldSetter : Instr → Bool
  | .setaddr _ | .setregh _ | .setregl _ | .setlenh _ | .setlenl _ | .setreg _ | .setlen _ => true
  | .setfunc _ | .emit | .encode _ _ _ _ | .crc16 _ | .hexenc _ | .hexdec _ | .decode6 _ => false

/-- The five commands that neither read nor write a register (10_state.md R26). -/
def isPure : Instr → Bool
  | .encode _ _ _ _ | .crc16 _ | .hexenc _ | .hexdec _ | .decode6 _ => true
  | .setaddr _ | .setfunc _ | .setregh _ | .setregl _ | .setlenh _ | .setlenl _ | .setreg _ | .setlen _ | .emit => false

/-- The value a setter gives a register: its operand or operand half, and 0x03 for FUNC where it forces it; none where it
does not write the register (10_state.md R26). -/
def writes (r : FrameReg) : Instr → Option Byte
  | .setaddr v => if r = .addr then some v else if r = .func then some 0x03 else none
  | .setfunc v => if r = .func then some v else none
  | .setregh v => if r = .regH then some v else if r = .func then some 0x03 else none
  | .setregl v => if r = .regL then some v else if r = .func then some 0x03 else none
  | .setlenh v => if r = .lenH then some v else if r = .func then some 0x03 else none
  | .setlenl v => if r = .lenL then some v else if r = .func then some 0x03 else none
  | .setreg v =>
    if r = .regH then some (hi8 v) else if r = .regL then some (lo8 v) else if r = .func then some 0x03 else none
  | .setlen v =>
    if r = .lenH then some (hi8 v) else if r = .lenL then some (lo8 v) else if r = .func then some 0x03 else none
  | .emit | .encode _ _ _ _ | .crc16 _ | .hexenc _ | .hexdec _ | .decode6 _ => none

/-- The value the last setter of a sequence that writes register `r` gives it (40_frame_setters.md R101). -/
def lastWrite (r : FrameReg) (is : List Instr) : Option Byte := is.reverse.findSome? (writes r)

/-- The 22 hex digits and their values (43_hex_text.md R150), written out. -/
def hexDigits : List (Byte × Nat) :=
  [(0x30, 0), (0x31, 1), (0x32, 2), (0x33, 3), (0x34, 4), (0x35, 5), (0x36, 6), (0x37, 7), (0x38, 8), (0x39, 9)] ++
  [(0x41, 10), (0x42, 11), (0x43, 12), (0x44, 13), (0x45, 14), (0x46, 15)] ++
  [(0x61, 10), (0x62, 11), (0x63, 12), (0x64, 13), (0x65, 14), (0x66, 15)]

/-- A character is a hex digit (R150). -/
def isHexDigit (b : Byte) : Bool := (hexDigits.lookup b).isSome

/-- The value of a hex digit (R150). -/
def digitValue (b : Byte) : Nat := (hexDigits.lookup b).getD 0

/-- The number a text of hex digits writes, first digit first. -/
def textNumber (t : List Byte) : Nat := t.foldl (fun n b => n * 16 + digitValue b) 0

/-- The number a byte sequence writes, first byte first. -/
def bytesNumber (bs : List Byte) : Nat := bs.foldl (fun n b => n * 256 + b.toNat) 0

/-- The upper-case digit of a number below 16 (R150). -/
def upperDigit (n : Nat) : Byte := if n < 10 then BitVec.ofNat 8 (0x30 + n) else BitVec.ofNat 8 (0x41 + n - 10)

/-- A lower-case hex letter made upper case; every other byte as it is (R158). -/
def upperCase (b : Byte) : Byte := if 0x61 ≤ b ∧ b ≤ 0x66 then b - 0x20 else b

/-- `k` is the smallest index of a non-hex character of the text (R152). -/
def FirstNonHexAt (t : List Byte) (k : Nat) : Prop :=
  (∃ b, t[k]? = some b ∧ isHexDigit b = false) ∧ ∀ j b, j < k → t[j]? = some b → isHexDigit b = true

/-- Every character of the text is a hex digit. -/
def AllHex (t : List Byte) : Prop := ∀ b ∈ t, isHexDigit b = true

/-- The payload length of a success response (30_encoding.md R70). -/
def payloadLength : Instr → Nat
  | .setaddr _ | .setfunc _ | .setregh _ | .setregl _ | .setlenh _ | .setlenl _ | .setreg _ | .setlen _ => 0
  | .emit | .encode _ _ _ _ => 8
  | .crc16 _ => 2
  | .hexenc d => 2 * d.length
  | .hexdec t => (t.length + 1) / 2
  | .decode6 _ => 6

end Sys2Proof.Claims

open Sys2Proof Sys2Proof.Machine Sys2Proof.Claims

/-! ## The setters -/

/-- R91: SETADDR `v` is spelt `10 vv`, writes ADDR and FUNC, leaves every other register, and answers `00`. -/
def Obligations.SetaddrWritesAddrAndForcesFunc : Prop :=
  ∀ (v : Byte) (s : State), decode [0x10, v] = .ok (.setaddr v) ∧
    exec (.setaddr v) s =
      .next { s with frame := { s.frame with addr := v, func := 0x03 }, response := some [0x00] }

/-- R92: SETFUNC `v` is spelt `11 vv` and writes FUNC only; it is the only command that can make FUNC differ from 0x03, and
FUNC stands until the next step that is a setter or a reset. -/
def Obligations.SetfuncAloneWritesFuncFreely : Prop :=
  (∀ (v : Byte) (s : State), decode [0x11, v] = .ok (.setfunc v) ∧
    exec (.setfunc v) s = .next { s with frame := { s.frame with func := v }, response := some [0x00] }) ∧
  (∀ (i : Instr) (s t : State), exec i s = .next t → t.frame.func ≠ s.frame.func → t.frame.func ≠ 0x03 →
    i = .setfunc t.frame.func) ∧
  (∀ s t : State, step s = .next t → t.frame.func ≠ s.frame.func →
    (∃ rest, s.port = .reset :: rest) ∨ ∃ i rest, Presents s i rest ∧ isSetter i = true)

/-- R93: SETREGH `v` is spelt `12 vv`, writes REGH and FUNC, leaves every other register, and answers `00`. -/
def Obligations.SetreghWritesReghAndForcesFunc : Prop :=
  ∀ (v : Byte) (s : State), decode [0x12, v] = .ok (.setregh v) ∧
    exec (.setregh v) s =
      .next { s with frame := { s.frame with regH := v, func := 0x03 }, response := some [0x00] }

/-- R94: SETREGL `v` is spelt `13 vv`, writes REGL and FUNC, leaves every other register, and answers `00`. -/
def Obligations.SetreglWritesReglAndForcesFunc : Prop :=
  ∀ (v : Byte) (s : State), decode [0x13, v] = .ok (.setregl v) ∧
    exec (.setregl v) s =
      .next { s with frame := { s.frame with regL := v, func := 0x03 }, response := some [0x00] }

/-- R95: SETLENH `v` is spelt `14 vv`, writes LENH and FUNC, leaves every other register, and answers `00`. -/
def Obligations.SetlenhWritesLenhAndForcesFunc : Prop :=
  ∀ (v : Byte) (s : State), decode [0x14, v] = .ok (.setlenh v) ∧
    exec (.setlenh v) s =
      .next { s with frame := { s.frame with lenH := v, func := 0x03 }, response := some [0x00] }

/-- R96: SETLENL `v` is spelt `15 vv`, writes LENL and FUNC, leaves every other register, and answers `00`. -/
def Obligations.SetlenlWritesLenlAndForcesFunc : Prop :=
  ∀ (v : Byte) (s : State), decode [0x15, v] = .ok (.setlenl v) ∧
    exec (.setlenl v) s =
      .next { s with frame := { s.frame with lenL := v, func := 0x03 }, response := some [0x00] }

/-- R97 (the spec's decision D15): SETREG `v` is spelt `18 hh ll` with `v = hh :: ll`, writes both halves of the register field and FUNC in one step,
and its end state is that of SETREGH `hi8(v)` followed by SETREGL `lo8(v)`. -/
def Obligations.SetregWritesBothHalvesAtOnce : Prop :=
  ∀ (hh ll : Byte) (v : Half) (s : State), decode [0x18, hh, ll] = .ok (.setreg (cat16 hh ll)) ∧
    (cat16 hh ll).toNat = hh.toNat * 256 + ll.toNat ∧
    exec (.setreg v) s = .next { s with
      frame := { s.frame with regH := hi8 v, regL := lo8 v, func := 0x03 }, response := some [0x00] } ∧
    execSeq [.setregh (hi8 v), .setregl (lo8 v)] s = exec (.setreg v) s

/-- R98 (the spec's decision D15): SETLEN `v` is spelt `19 hh ll` with `v = hh :: ll`, writes both halves of the length field and FUNC in one step,
and its end state is that of SETLENH `hi8(v)` followed by SETLENL `lo8(v)`. -/
def Obligations.SetlenWritesBothHalvesAtOnce : Prop :=
  ∀ (hh ll : Byte) (v : Half) (s : State), decode [0x19, hh, ll] = .ok (.setlen (cat16 hh ll)) ∧
    (cat16 hh ll).toNat = hh.toNat * 256 + ll.toNat ∧
    exec (.setlen v) s = .next { s with
      frame := { s.frame with lenH := hi8 v, lenL := lo8 v, func := 0x03 }, response := some [0x00] } ∧
    execSeq [.setlenh (hi8 v), .setlenl (lo8 v)] s = exec (.setlen v) s

/-- R99 (on an unchanged value the spec's decision D16, log entry 8): every execution of an addressing or length setter ends with FUNC = 0x03, whatever FUNC held, whatever the operand
is, and whether or not the operand differs from what the register held. -/
def Obligations.FieldSettersForceFunctionThree : Prop :=
  ∀ (i : Instr) (s : State), isFieldSetter i = true → ∃ t, exec i s = .next t ∧ t.frame.func = 0x03

/-- R101 (which the spec derives from R91 to R99): after any sequence of setters from any state, each register holds what the
last setter that writes it gave it, or its old value. -/
def Obligations.SetterSequenceLeavesLastWrites : Prop :=
  ∀ (is : List Instr) (s : State), (∀ i ∈ is, isSetter i = true) →
    ∃ t, execSeq is s = .next t ∧ (∀ r, t.readReg r = (lastWrite r is).getD (s.readReg r)) ∧
      t.port = s.port ∧ t.frameReset = s.frameReset ∧ (is ≠ [] → t.response = some [0x00])

/-- R101 (derived by the spec): setters of different addressing or length registers commute, and repeating a setter with the
same operand is idempotent. -/
def Obligations.SettersCommuteAndRepeat : Prop :=
  (∀ (i j : Instr) (s : State), isFieldSetter i = true → isFieldSetter j = true →
    (∀ r, r ≠ .func → writes r i = none ∨ writes r j = none) → execSeq [i, j] s = execSeq [j, i] s) ∧
  (∀ (i : Instr) (s : State), isSetter i = true → execSeq [i, i] s = exec i s)

/-- R203: a SETFUNC followed, with any commands in between, by an addressing or length setter is lost, silently (the
response is `00`, as if nothing had been lost); a SETFUNC after the setter stands. -/
def Obligations.SetfuncBeforeFieldSetterIsLost : Prop :=
  ∀ (v : Byte) (mid : List Instr) (i : Instr) (s : State), isFieldSetter i = true →
    (∃ t, execSeq (.setfunc v :: (mid ++ [i])) s = .next t ∧ t.frame.func = 0x03 ∧ t.response = some [0x00]) ∧
    (∃ t, execSeq (.setfunc v :: (mid ++ [i, .setfunc v])) s = .next t ∧ t.frame.func = v)

/-- R102 (derived by the spec): every register contents can be reached by LOADFRAME from every state, and produces a frame. -/
def Obligations.EveryFrameIsReachable : Prop :=
  ∀ (f : Frame) (s : State),
    ∃ t, execSeq (Pseudo.loadframe f.addr f.func (cat16 f.regH f.regL) (cat16 f.lenH f.lenL)).expand s = .next t ∧
      t.frame = f ∧ t.frameOut.length = 8

/-- R73 (the spec's decision D2): the expansions of the four pseudo-instructions, the registers each leaves, whatever they held before, and one
response for each real command. -/
def Obligations.PseudoInstructionsExpandAndLoad : Prop :=
  (∀ (a f hi lo : Byte) (r l : Half) (s : State),
    (Pseudo.loadframe a f r l).expand = [.setaddr a, .setreg r, .setlen l, .setfunc f] ∧
    (Pseudo.loadread a r l).expand = [.setaddr a, .setreg r, .setlen l] ∧
    (Pseudo.setregb hi lo).expand = [.setregh hi, .setregl lo] ∧
    (Pseudo.setlenb hi lo).expand = [.setlenh hi, .setlenl lo] ∧
    execSeq (Pseudo.loadframe a f r l).expand s =
      .next { s with frame := ⟨a, f, hi8 r, lo8 r, hi8 l, lo8 l⟩, response := some [0x00] } ∧
    execSeq (Pseudo.loadread a r l).expand s =
      .next { s with frame := ⟨a, 0x03, hi8 r, lo8 r, hi8 l, lo8 l⟩, response := some [0x00] } ∧
    execSeq (Pseudo.setregb hi lo).expand s = exec (.setreg (cat16 hi lo)) s ∧
    execSeq (Pseudo.setlenb hi lo).expand s = exec (.setlen (cat16 hi lo)) s) ∧
  (∀ (p : Pseudo) (k : Nat) (s : State), 0 < k → k ≤ p.expand.length →
    ∃ t, execSeq (p.expand.take k) s = .next t ∧ t.response = some [0x00])

/-- From R66 and R25 (the spec's decision D7): opcode `0x10 + i` writes Frame register `F[i]`, for `i` in 0 to 5. -/
def Obligations.OpcodeSelectsTheRegister : Prop :=
  ∀ (r : FrameReg) (v : Byte) (s : State), ∃ i t, decode [0x10 + BitVec.ofNat 8 r.index, v] = .ok i ∧
    exec i s = .next t ∧ t.readReg r = v

/-- From the access table of R26: no command writes a register other than the table gives it: a register that changed is one the command writes, and
it holds what the command gives it. -/
def Obligations.CommandsWriteOnlyTheirRegisters : Prop :=
  ∀ (i : Instr) (s t : State) (r : FrameReg), exec i s = .next t →
    t.readReg r = (writes r i).getD (s.readReg r)

/-! ## The frame producers -/

/-- R113 (the spec's decision D34): EMIT is spelt `20`, answers `00` and the 8 bytes of the frame of the registers, identical to the FRAME output, and
writes nothing. -/
def Obligations.EmitAnswersTheFrame : Prop :=
  ∀ s : State, decode [0x20] = .ok .emit ∧
    exec .emit s = .next { s with response := some (0x00 :: encode8 s.frame.addr s.frame.func
      (cat16 s.frame.regH s.frame.regL) (cat16 s.frame.lenH s.frame.lenL)) } ∧
    exec .emit s = .next { s with response := some (0x00 :: s.frameOut) } ∧ (0x00 :: s.frameOut).length = 9

/-- R114 (the spec's decision D17): ENCODE `a, f, r, l` is spelt `21 aa ff rH rL lH lL`, answers `00` and the frame of its operands, whose first six
bytes are bytes 1 to 6 of the command, and reads and writes no register. -/
def Obligations.EncodeAnswersTheFrameOfItsOperands : Prop :=
  ∀ (a f rH rL lH lL : Byte) (s : State),
    decode [0x21, a, f, rH, rL, lH, lL] = .ok (.encode a f (cat16 rH rL) (cat16 lH lL)) ∧
    exec (.encode a f (cat16 rH rL) (cat16 lH lL)) s =
      .next { s with response := some (0x00 :: encode8 a f (cat16 rH rL) (cat16 lH lL)) } ∧
    (encode8 a f (cat16 rH rL) (cat16 lH lL)).take 6 = [a, f, rH, rL, lH, lL] ∧
    (encode8 a f (cat16 rH rL) (cat16 lH lL)).length = 8

/-- R112 (the spec's decision D34): the FRAME output is the six registers and their CRC, low byte first, and a function of the registers alone. -/
def Obligations.FrameOutputIsAFunctionOfTheRegisters : Prop :=
  (∀ s : State, s.frameOut =
    [s.frame.addr, s.frame.func, s.frame.regH, s.frame.regL, s.frame.lenH, s.frame.lenL] ++
    [lo8 (crc16 [s.frame.addr, s.frame.func, s.frame.regH, s.frame.regL, s.frame.lenH, s.frame.lenL]),
      hi8 (crc16 [s.frame.addr, s.frame.func, s.frame.regH, s.frame.regL, s.frame.lenH, s.frame.lenL])]) ∧
  (∀ s t : State, s.frame = t.frame → s.frameOut = t.frameOut)

/-- R41, R42, R111: in one frame the 16-bit fields of the header have their high byte first and the CRC over the 6 header
bytes has its low byte first; high byte and low byte are the quotient and remainder by 256. -/
def Obligations.HeaderBigEndianTrailerLittleEndian : Prop :=
  (∀ (a f : Byte) (r l : Half), ∃ c, c = crc16 [a, f, hi8 r, lo8 r, hi8 l, lo8 l] ∧
    encode8 a f r l = [a, f, hi8 r, lo8 r, hi8 l, lo8 l, lo8 c, hi8 c]) ∧
  (∀ v : Half, (hi8 v).toNat = v.toNat / 256 ∧ (lo8 v).toNat = v.toNat % 256)

/-- R110: the header is a bijection between the tuples `(a, f, r, l)` and the sequences of 6 bytes. -/
def Obligations.HeaderIsABijection : Prop :=
  (∀ (a f : Byte) (r l : Half), header6 a f r l = [a, f, hi8 r, lo8 r, hi8 l, lo8 l]) ∧
  (∀ bs : List Byte, bs.length = 6 → ∃! p : Byte × Byte × Half × Half, header6 p.1 p.2.1 p.2.2.1 p.2.2.2 = bs)

/-- R115: the known vector of the source. -/
def Obligations.KnownVectorHolds : Prop :=
  crc16 [0x01, 0x03, 0x00, 0x00, 0x00, 0x0A] = 0xCDC5 ∧
    encode8 0x01 0x03 0x0000 0x000A = [0x01, 0x03, 0x00, 0x00, 0x00, 0x0A, 0xC5, 0xCD]

/-- R117 (derived by the spec): the payload of ENCODE equals the payload of EMIT executed after LOADFRAME of the same
fields, and DECODE6 of the HEXENC of its first six bytes returns them. -/
def Obligations.EmitAfterLoadframeAgreesWithEncode : Prop :=
  ∀ (a f : Byte) (r l : Half) (s : State), ∃ t u v,
    execSeq ((Pseudo.loadframe a f r l).expand ++ [.emit]) s = .next t ∧ exec (.encode a f r l) s = .next u ∧
    t.response = u.response ∧ t.response = some (0x00 :: encode8 a f r l) ∧
    exec (.decode6 (hexenc ((encode8 a f r l).take 6))) s = .next v ∧
    v.response = some (0x00 :: (encode8 a f r l).take 6)

/-- R118 (derived by the spec): the CRC of all 8 bytes of every frame is zero. -/
def Obligations.FrameResidueIsZero : Prop :=
  ∀ (a f : Byte) (r l : Half), crc16 (encode8 a f r l) = 0x0000

/-! ## The checksum -/

/-- R132: the table-driven byte step equals the bitwise one for every accumulator and byte, and so the two forms of `crc16`
agree on every byte sequence. -/
def Obligations.TableDrivenCrcEqualsBitwise : Prop :=
  (∀ (c : Half) (b : Byte), bytestepTab c b = bytestepBit c b) ∧ (∀ bs : List Byte, crc16Tab bs = crc16 bs)

/-- R129, R130 (derived by the spec): CRCTAB has 256 entries, and entry `i` is eight bit steps applied to `i`. -/
def Obligations.TableListsEightBitSteps : Prop :=
  crcTab.length = 256 ∧ ∀ i : Byte, crcTabAt i =
    bitstep (bitstep (bitstep (bitstep (bitstep (bitstep (bitstep (bitstep (zext16 i))))))))

/-- R126 to R128 (the loop is the spec's from general knowledge, log entry 7): the accumulator starts at 0xFFFF; each byte is
exclusive-ored into the low half, and eight times the accumulator is halved, with 0xA001 exclusive-ored in where it was
odd. -/
def Obligations.CrcRunsTheModbusLoop : Prop :=
  crc16 [] = 0xFFFF ∧
  (∀ (bs : List Byte) (b : Byte), crc16 (bs ++ [b]) =
    bitstep (bitstep (bitstep (bitstep (bitstep (bitstep (bitstep (bitstep (crc16 bs ^^^ BitVec.ofNat 16 b.toNat)))))))) ) ∧
  (∀ c : Half, (bitstep c).toNat = if c.toNat % 2 = 1 then (c.toNat / 2) ^^^ 0xA001 else c.toNat / 2)

/-- R134, R138 (derived by the spec): the empty sequence gives 0xFFFF, and the checksum of a concatenation continues from the
checksum of its first part. -/
def Obligations.CrcContinuesOverConcatenation : Prop :=
  crc16 [] = 0xFFFF ∧ ∀ xs ys : List Byte, crc16 (xs ++ ys) = crc16From (crc16 xs) ys

/-- R133 (the byte order is the spec's decision D14): CRC16 `d` is spelt `30 nH nL d0 ... d(n-1)` and answers `00 lo hi` of the checksum; it reads and writes no
register; the empty sequence answers `00 FF FF`, and a header answers the two trailer bytes of its frame. -/
def Obligations.Crc16AnswersTheChecksumLowByteFirst : Prop :=
  (∀ s : State, exec (.crc16 []) s = .next { s with response := some [0x00, 0xFF, 0xFF] }) ∧
  (∀ (a f : Byte) (r l : Half) (s : State), exec (.crc16 (header6 a f r l)) s =
    .next { s with response := some (0x00 :: (encode8 a f r l).drop 6) }) ∧
  ∀ (nHi nLo : Byte) (d : List Byte) (s : State),
    (d.length = nHi.toNat * 256 + nLo.toNat → decode (0x30 :: nHi :: nLo :: d) = .ok (.crc16 d)) ∧
    exec (.crc16 d) s = .next { s with response := some [0x00, lo8 (crc16 d), hi8 (crc16 d)] }

/-! ## The text functions -/

/-- From R150 (the spec's decisions D18 to D20 and general knowledge G6, log entry 9): `hexval` is the value of the 22 hex digits and none on the 234 other bytes; `hexchar` is the upper-case digit. -/
def Obligations.HexDigitsAreTheTwentyTwo : Prop :=
  (∀ b : Byte, (hexval b).map BitVec.toNat = hexDigits.lookup b) ∧
  (∀ n : Nibble, hexchar n = upperDigit n.toNat) ∧ hexDigits.length = 22

/-- R154, R151 (upper case is the spec's decision D19, log entry 9): HEXENC `d` is spelt `40 nH nL d0 ... d(n-1)` and answers `00` and two upper-case digits per byte, high nibble
first, with nothing between them; it reads and writes no register. -/
def Obligations.HexencAnswersTwoDigitsPerByte : Prop :=
  ∀ (nHi nLo : Byte) (d : List Byte) (s : State),
    (d.length = nHi.toNat * 256 + nLo.toNat → decode (0x40 :: nHi :: nLo :: d) = .ok (.hexenc d)) ∧
    exec (.hexenc d) s = .next { s with response := some (0x00 :: hexenc d) } ∧
    hexenc d = d.flatMap (fun b => [upperDigit (b.toNat / 16), upperDigit (b.toNat % 16)]) ∧
    (hexenc d).length = 2 * d.length

/-- R152 (the index is the spec's decision D22): a text of hex digits decodes to the bytes, half as many rounded up, that write the same number (so an odd
first digit stands alone); a text with a non-hex character decodes to nothing but the smallest index of one. -/
def Obligations.HexdecKeepsTheNumber : Prop :=
  (∀ t : List Byte, AllHex t → ∃ bs, hexdec t = .ok bs ∧ bs.length = (t.length + 1) / 2 ∧
    bytesNumber bs = textNumber t) ∧
  (∀ (t : List Byte) (k : Nat), hexdec t = .error k ↔ FirstNonHexAt t k)

/-- R153: a text with an odd number of digits decodes as `"0" ++ t`: the first digit is the low nibble of the first byte and
the others pair up in order. -/
def Obligations.OddTextFirstDigitStandsAlone : Prop :=
  ∀ (b : Byte) (t : List Byte), AllHex (b :: t) → t.length % 2 = 0 →
    hexdec (b :: t) = hexdec (0x30 :: b :: t) ∧
    ∃ bs, hexdec t = .ok bs ∧ hexdec (b :: t) = .ok (BitVec.ofNat 8 (digitValue b) :: bs)

/-- R155 (the spec's decisions D20, D22): HEXDEC `t` is spelt `41 nH nL t0 ... t(n-1)`; it answers `00` and the decoded bytes of a text of hex digits, and
otherwise MalformedHexError with the index of the first non-hex character; it reads and writes no register. -/
def Obligations.HexdecAnswersBytesOrIndex : Prop :=
  ∀ (nHi nLo : Byte) (t : List Byte) (s : State),
    (t.length = nHi.toNat * 256 + nLo.toNat → decode (0x41 :: nHi :: nLo :: t) = .ok (.hexdec t)) ∧
    (AllHex t → ∃ bs, hexdec t = .ok bs ∧ exec (.hexdec t) s = .next { s with response := some (0x00 :: bs) }) ∧
    (∀ k, FirstNonHexAt t k → exec (.hexdec t) s =
      .next { s with response := some [0x02, hi8 (BitVec.ofNat 16 k), lo8 (BitVec.ofNat 16 k)] })

/-- R156 (the spec's decision D21, log entry 10): DECODE6 `t` is spelt `42 nH nL t0 ... t(n-1)`; on 11 or 12 hex digits it answers `00` and the 6 header bytes of the
four fields, which are the decoded bytes; on another number of hex digits MalformedHexError with info 0xFFFF; and a
non-hex character is reported in preference to the length. It reads and writes no register. -/
def Obligations.Decode6AnswersSixBytesOrError : Prop :=
  ∀ (nHi nLo : Byte) (t : List Byte) (s : State),
    (t.length = nHi.toNat * 256 + nLo.toNat → decode (0x42 :: nHi :: nLo :: t) = .ok (.decode6 t)) ∧
    (AllHex t → (t.length = 11 ∨ t.length = 12) →
      ∃ a f r l, hexdec t = .ok (header6 a f r l) ∧
        exec (.decode6 t) s = .next { s with response := some (0x00 :: header6 a f r l) }) ∧
    (AllHex t → t.length ≠ 11 → t.length ≠ 12 →
      exec (.decode6 t) s = .next { s with response := some [0x02, 0xFF, 0xFF] }) ∧
    (∀ k, FirstNonHexAt t k → exec (.decode6 t) s =
      .next { s with response := some [0x02, hi8 (BitVec.ofNat 16 k), lo8 (BitVec.ofNat 16 k)] })

/-- R157: for every byte sequence, decoding its hexadecimal text gives it back; in commands, HEXDEC of the payload of HEXENC
`d` answers `d` for `len(d)` up to 32767, and DECODE6 of the text of a header answers the header. -/
def Obligations.HexRoundTrip : Prop :=
  (∀ bs : List Byte, hexdec (hexenc bs) = .ok bs) ∧
  (∀ (d : List Byte) (s : State), d.length ≤ 32767 → ∃ p t,
    exec (.hexenc d) s = .next t ∧ t.response = some (0x00 :: p) ∧ (Instr.hexdec p).wf = true ∧
    exec (.hexdec p) t = .next { t with response := some (0x00 :: d) }) ∧
  (∀ (a f : Byte) (r l : Half) (s : State), exec (.decode6 (hexenc (header6 a f r l))) s =
    .next { s with response := some (0x00 :: header6 a f r l) })

/-- R158 (derived by the spec): encoding the bytes a text decodes to gives the text back with a `0` in front if its length
was odd and with its letters made upper case. -/
def Obligations.HexencOfHexdecNormalises : Prop :=
  ∀ t : List Byte, AllHex t → ∃ bs, hexdec t = .ok bs ∧
    hexenc bs = if t.length % 2 = 1 then 0x30 :: t.map upperCase else t.map upperCase

/-! ## Encoding -/

/-- R67 (the spec's decisions D7, D10): the order of the tests, the info of each illegal byte string, and that a byte string which passes them spells one
command, with its operands assembled from its bytes. -/
def Obligations.DecodeFollowsTheOrderOfTests : Prop :=
  decode [] = .error .empty ∧
  ∀ (op : Byte) (bs : List Byte),
    (op ∉ definedOpcodes → decode (op :: bs) = .error (.reserved op)) ∧
    (op ∈ definedOpcodes → ¬ LengthOk op (op :: bs) → decode (op :: bs) = .error (.wrongLength op)) ∧
    (op ∈ definedOpcodes → LengthOk op (op :: bs) →
      ∃ i, decode (op :: bs) = .ok i ∧ i.op.byte = op ∧ encode i = op :: bs) ∧
    DecodeError.empty.info = 0x0000 ∧ (DecodeError.reserved op).info.toNat = 0x0100 + op.toNat ∧
    (DecodeError.wrongLength op).info.toNat = 0x0200 + op.toNat

/-- Decode and encode agree: every well-formed command is read back whole from the bytes that spell it (R60 to R66, R74). -/
def Obligations.DecodeOfEncodeIsTheCommand : Prop :=
  ∀ i : Instr, i.wf = true → decode (encode i) = .ok i

/-- Every byte string spells at most one command: one that decodes is the encoding of the well-formed command it decodes to
(R60). -/
def Obligations.EncodeOfDecodeIsTheBytes : Prop :=
  ∀ (cmd : List Byte) (i : Instr), decode cmd = .ok i → encode i = cmd ∧ i.wf = true

/-- A few command byte strings written out from the formats of R61 to R65 decode to the commands they stand for (the examples
of R72 and of the command rules). -/
def Obligations.WrittenOutWordsDecode : Prop :=
  decode [0x10, 0x01] = .ok (.setaddr 0x01) ∧ decode [0x18, 0x00, 0x6B] = .ok (.setreg 0x006B) ∧
  decode [0x20] = .ok .emit ∧
  decode [0x21, 0x01, 0x03, 0x00, 0x00, 0x00, 0x0A] = .ok (.encode 0x01 0x03 0x0000 0x000A) ∧
  decode [0x30, 0x00, 0x02, 0x01, 0x03] = .ok (.crc16 [0x01, 0x03]) ∧
  decode [0x41, 0x00, 0x02, 0x30, 0x41] = .ok (.hexdec [0x30, 0x41])

/-- The assembler notation of R72 on its six examples, the text in double quotes among them, and on its two ways to write a
raw command byte string (what R72 leaves open is the model's, log entry 15). -/
def Obligations.AssemblerReadsTheExamples : Prop :=
  Asm.line "SETADDR 0x01".toList = some [[0x10, 0x01]] ∧
  Asm.line "SETREG 0x006B".toList = some [[0x18, 0x00, 0x6B]] ∧
  Asm.line "EMIT".toList = some [[0x20]] ∧
  Asm.line "ENCODE 0x01, 0x03, 0x0000, 0x000A".toList = some [[0x21, 0x01, 0x03, 0x00, 0x00, 0x00, 0x0A]] ∧
  Asm.line "CRC16 [01 03]".toList = some [[0x30, 0x00, 0x02, 0x01, 0x03]] ∧
  Asm.line "HEXDEC \"0A\"".toList = some [[0x41, 0x00, 0x02, 0x30, 0x41]] ∧
  Asm.line ".bytes 16 01 ; reserved".toList = some [[0x16, 0x01]] ∧ Asm.line ".empty".toList = some [[]]

/-! ## Steps, errors and reset -/

/-- R175, R181 (the spec's decision D13): a step on a presented byte string always answers a next state, with one of two outcomes: Ok, a response of
`00` and a payload; or Err, three bytes `[code, hi8(info), lo8(info)]`, and then all six registers keep their values. -/
def Obligations.EveryCommandEndsInOkOrErr : Prop :=
  ∀ (s : State) (cmd : List Byte) (rest : List PortEvent), s.port = .command cmd :: rest →
    ∃ t, step s = .next t ∧ t.port = rest ∧ t.frameReset = s.frameReset ∧
      ((∃ bs, t.response = some (0x00 :: bs)) ∨
       ∃ (code : Byte) (info : Half), (code = 0x01 ∨ code = 0x02) ∧
        t.response = some [code, hi8 info, lo8 info] ∧ t.frame = s.frame)

/-- R176 (the spec's decisions D10, D12): the three kinds of byte string that spell no command, the response each gets, and that nothing is written. -/
def Obligations.IllegalCommandAnswersAndWritesNothing : Prop :=
  ∀ (s : State) (cmd : List Byte) (rest : List PortEvent), s.port = .command cmd :: rest →
    (cmd = [] → step s = .next { s with port := rest, response := some [0x01, 0x00, 0x00] }) ∧
    (∀ op bs, cmd = op :: bs → op ∉ definedOpcodes →
      step s = .next { s with port := rest, response := some [0x01, 0x01, op] }) ∧
    (∀ op bs, cmd = op :: bs → op ∈ definedOpcodes → ¬ LengthOk op cmd →
      step s = .next { s with port := rest, response := some [0x01, 0x02, op] })

/-- R177 (the spec's decisions D12, D21, D22): HEXDEC and DECODE6 raise MalformedHexError with the index of the first non-hex character, and DECODE6 alone with
0xFFFF where every character is a hex digit and they decode to another number of bytes than 6; no other command raises it,
and an index is at most 0xFFFE. -/
def Obligations.MalformedHexComesFromTextCommands : Prop :=
  (∀ (s : State) (cmd : List Byte) (rest : List PortEvent) (x : List Byte), s.port = .command cmd :: rest →
    (∀ k, (decode cmd = .ok (.hexdec x) ∨ decode cmd = .ok (.decode6 x)) → FirstNonHexAt x k →
      k ≤ 0xFFFE ∧ step s = .next { s with
        port := rest, response := some [0x02, BitVec.ofNat 8 (k / 256), BitVec.ofNat 8 (k % 256)] }) ∧
    (decode cmd = .ok (.decode6 x) → AllHex x → (x.length + 1) / 2 ≠ 6 →
      step s = .next { s with port := rest, response := some [0x02, 0xFF, 0xFF] })) ∧
  (∀ (s t : State) (cmd : List Byte) (rest : List PortEvent) (r : List Byte), s.port = .command cmd :: rest →
    step s = .next t → t.response = some (0x02 :: r) →
    ∃ x, ((decode cmd = .ok (.hexdec x) ∨ decode cmd = .ok (.decode6 x)) ∧ ∃ k, FirstNonHexAt x k) ∨
      (decode cmd = .ok (.decode6 x) ∧ AllHex x ∧ (x.length + 1) / 2 ≠ 6))

/-- R182 (the spec's decision D13): after an error the next event is handled exactly as it would have been had the failing command never been
presented. -/
def Obligations.ErrorsLeaveTheNextEventUnaffected : Prop :=
  ∀ (s t : State) (cmd : List Byte) (ev : PortEvent) (rest : List PortEvent) (code : Byte) (r : List Byte),
    s.port = .command cmd :: ev :: rest → step s = .next t → t.response = some (code :: r) → code ≠ 0x00 →
    step t = step { s with port := ev :: rest }

/-- From the table of R70 (the spec's decision D11): the payload of every success response has the length the table gives. -/
def Obligations.PayloadsHaveTheirLengths : Prop :=
  ∀ (i : Instr) (s t : State) (bs : List Byte), exec i s = .next t → t.response = some (0x00 :: bs) →
    bs.length = payloadLength i

/-- From R26 and R159: the five pure commands answer a response that no register acts on, and write no register. -/
def Obligations.PureCommandsIgnoreTheRegisters : Prop :=
  ∀ i : Instr, isPure i = true → ∃ rsp, ∀ s : State, exec i s = .next { s with response := some rsp }

/-- R32 (derived by the spec): a command's response and the registers it leaves are a function of the registers and the
command alone. -/
def Obligations.EffectDependsOnRegistersAndCommand : Prop :=
  ∀ (i : Instr) (s u : State), s.frame = u.frame →
    ∃ t v, exec i s = .next t ∧ exec i u = .next v ∧ t.frame = v.frame ∧ t.response = v.response

/-- A step runs the decoded command: where the next event is a byte string that decodes to `i`, the step is `exec i` at the
state with that event taken from the port (R60, R67). -/
def Obligations.StepRunsTheDecodedCommand : Prop :=
  ∀ (s : State) (cmd : List Byte) (rest : List PortEvent) (i : Instr), s.port = .command cmd :: rest →
    decode cmd = .ok i → step s = exec i { s with port := rest }

/-- From R48 (the spec's decision D26): commands take effect one at a time in the order in which the host presents them: presenting a sequence of
well-formed commands and taking as many steps is executing the sequence in order. -/
def Obligations.RunOfPresentedCommandsExecutesInOrder : Prop :=
  ∀ (is : List Instr) (rest : List PortEvent) (s : State), (∀ i ∈ is, i.wf = true) →
    s.port = presented is ++ rest →
    Host.Core.run Sys2Proof.core is.length s = execSeq is { s with port := rest }

/-- R200 (the spec's decisions D23, D30): a reset loads FRAME_RESET into the six registers, returns no response and leaves none pending, and takes nothing
else from the port; the FRAME output is then the frame of FRAME_RESET. -/
def Obligations.ResetEventLoadsFrameReset : Prop :=
  ∀ (s : State) (rest : List PortEvent), s.port = .reset :: rest →
    step s = .next { s with frame := s.frameReset, response := none, port := rest } ∧
    ∀ t, step s = .next t → t.frameOut = (State.resetWith s.frameReset).frameOut

/-- R201 (the spec's decision D23): for every FRAME_RESET, the registers of the machine after reset hold its six bytes, the FRAME output is their
frame, and no command or response is pending. -/
def Obligations.ResetHoldsFrameResetForEveryValue : Prop :=
  ∀ a f rH rL lH lL : Byte, ∃ s, s = State.resetWith ⟨a, f, rH, rL, lH, lL⟩ ∧
    s.readReg .addr = a ∧ s.readReg .func = f ∧ s.readReg .regH = rH ∧ s.readReg .regL = rL ∧
    s.readReg .lenH = lH ∧ s.readReg .lenL = lL ∧ s.response = none ∧ s.port = [] ∧
    s.frameOut = encode8 a f (cat16 rH rL) (cat16 lH lL)

/-- R202 (derived by the spec): from reset with any FRAME_RESET, the three commands of LOADREAD define every register, with
the function 0x03, and no byte of FRAME_RESET is left in them. -/
def Obligations.LoadreadDefinesEveryRegisterAfterReset : Prop :=
  ∀ (fr : Frame) (a : Byte) (r l : Half),
    Host.Core.run Sys2Proof.core 3 { State.resetWith fr with port := presented (Pseudo.loadread a r l).expand } =
      .next { frame := ⟨a, 0x03, hi8 r, lo8 r, hi8 l, lo8 l⟩, response := some [0x00], port := [], frameReset := fr }

/-- The invariant holds at reset, for every FRAME_RESET (R200: no response is pending). -/
def Obligations.ResponseInvHoldsAtReset : Prop :=
  (∀ fr : Frame, ResponseInv (State.resetWith fr)) ∧ ResponseInv State.reset

/-- Every step keeps the invariant: what the response port returns is `00` and a payload, or status 0x01 with one of the infos
R71 gives IllegalCommand (0x0000, 0x0100 + a reserved opcode, 0x0200 + a defined one), or status 0x02 with an info; status
values 0x03 to 0xFF are never produced. -/
def Obligations.StepKeepsResponseInv : Prop :=
  ∀ s t : State, ResponseInv s → step s = .next t → ResponseInv t

/-- Every step takes the first event from the port where there is one, and none where the port is empty (the idle step, log
entry 3), and never writes the parameter FRAME_RESET (R33, R48; the two fields are the model's, log entries 1 and 4). -/
def Obligations.StepTakesFirstEventAndKeepsFrameReset : Prop :=
  ∀ s t : State, step s = .next t → t.port = s.port.tail ∧ t.frameReset = s.frameReset

/-- From R175: no step hangs and none stops the block: every run goes on, from every state, for any number of steps (a run past
the last event idles, which is the model's choice, log entry 3). -/
def Obligations.EveryRunGoesOn : Prop :=
  ∀ (k : Nat) (s : State), SafeRun k s

/-- R34, R202 (derived by the spec): once LOADFRAME has run, nothing a host can see depends on FRAME_RESET: from two machines
reset with different values of it, every sequence of commands then gives the same responses and the same registers. -/
def Obligations.FrameResetIsForgottenAfterLoadframe : Prop :=
  ∀ (fr fr' : Frame) (a f : Byte) (r l : Half) (is : List Instr), ∃ t t',
    execSeq ((Pseudo.loadframe a f r l).expand ++ is) (State.resetWith fr) = .next t ∧
    execSeq ((Pseudo.loadframe a f r l).expand ++ is) (State.resetWith fr') = .next t' ∧
    t.response = t'.response ∧ t.frame = t'.frame
end

