-- ==== Sys2Proof/Laws/Operands.lean ====
section
/-! SUPPORT. Byte order: `hi8`, `lo8` and `::` undo one another (42_crc16.md R139), and a sequence operand is read back from
its bytes (30_encoding.md R65). -/

namespace Sys2Proof

@[simp] theorem hi8_cat16 (a b : Byte) : hi8 (cat16 a b) = a := by
  apply BitVec.eq_of_getLsbD_eq
  intro i hi
  simp only [hi8, cat16, BitVec.getLsbD_extractLsb', BitVec.getLsbD_append]
  have h : ¬ 8 + i < 8 := by omega
  simp [hi]

@[simp] theorem lo8_cat16 (a b : Byte) : lo8 (cat16 a b) = b := by
  apply BitVec.eq_of_getLsbD_eq
  intro i hi
  simp only [lo8, cat16, BitVec.getLsbD_extractLsb', BitVec.getLsbD_append]
  simp [hi]

/-- `v = hi8(v) * 256 + lo8(v)`, as bits (R139). -/
@[simp] theorem cat16_hi8_lo8 (v : Half) : cat16 (hi8 v) (lo8 v) = v := by
  apply BitVec.eq_of_getLsbD_eq
  intro i hi
  simp only [hi8, lo8, cat16, BitVec.getLsbD_append, BitVec.getLsbD_extractLsb']
  by_cases h : i < 8
  · simp [h]
  · have h8 : 8 + (i - 8) = i := by omega
    have h' : i - 8 < 8 := by omega
    simp [h, h8, h']

theorem cat16_toNat (a b : Byte) : (cat16 a b).toNat = a.toNat * 256 + b.toNat := by
  have hb := b.isLt
  rw [cat16, BitVec.toNat_append, Nat.shiftLeft_eq, ← Nat.shiftLeft_eq,
    ← Nat.shiftLeft_add_eq_or_of_lt hb, Nat.shiftLeft_eq]

theorem hi8_toNat (v : Half) : (hi8 v).toNat = v.toNat / 256 := by
  have h := v.isLt
  simp only [hi8, BitVec.extractLsb'_toNat, Nat.shiftRight_eq_div_pow]
  omega

theorem lo8_toNat (v : Half) : (lo8 v).toNat = v.toNat % 256 := by
  simp [lo8]

/-- The operand of format B is one byte (R62). -/
theorem byteOperand_eq_some {bs : List Byte} {v : Byte} : byteOperand bs = some v ↔ bs = [v] := by
  match bs with
  | [] => simp [byteOperand]
  | [w] => simp [byteOperand]
  | _ :: _ :: _ => simp [byteOperand]

/-- The operand of format H is two bytes, high byte first (R63). -/
theorem halfOperand_eq_some {bs : List Byte} {v : Half} : halfOperand bs = some v ↔ bs = [hi8 v, lo8 v] := by
  match bs with
  | [] => simp [halfOperand]
  | [_] => simp [halfOperand]
  | [a, b] =>
    constructor
    · intro h
      obtain rfl : cat16 a b = v := by simpa [halfOperand] using h
      simp
    · intro h
      obtain ⟨rfl, rfl⟩ : a = hi8 v ∧ b = lo8 v := by simpa using h
      simp [halfOperand]
  | _ :: _ :: _ :: _ => simp [halfOperand]

/-- The operands of format F are six bytes (R64); another number of bytes has none. -/
theorem frameOperand_cases (bs : List Byte) :
    (bs.length ≠ 6 ∧ frameOperand bs = none) ∨ ∃ a f rHi rLo lHi lLo, bs = [a, f, rHi, rLo, lHi, lLo] := by
  match bs with
  | [] | [_] | [_, _] | [_, _, _] | [_, _, _, _] | [_, _, _, _, _] => left; simp [frameOperand]
  | [a, f, rHi, rLo, lHi, lLo] => right; exact ⟨a, f, rHi, rLo, lHi, lLo, rfl⟩
  | _ :: _ :: _ :: _ :: _ :: _ :: _ :: rest => left; simp [frameOperand]

/-- A sequence within MAX_SEQ is read back from its length field and bytes (R65, R74). -/
theorem seqOperand_seqBytes {d : List Byte} (h : d.length ≤ Config.maxSeq) :
    seqOperand (seqBytes d) = some d := by
  have h' : d.length < 65536 := by
    have : Config.maxSeq = 65535 := rfl
    omega
  simp [seqOperand, seqBytes, Nat.mod_eq_of_lt h']

/-- What reading a sequence operand says of the bytes (R65). -/
theorem seqOperand_eq_some {bs d : List Byte} (h : seqOperand bs = some d) :
    bs = seqBytes d ∧ d.length ≤ Config.maxSeq := by
  match bs with
  | [] => simp [seqOperand] at h
  | [_] => simp [seqOperand] at h
  | nHi :: nLo :: rest =>
    simp only [seqOperand] at h
    split at h
    · rename_i hl
      obtain rfl : rest = d := by simpa using h
      have hn : BitVec.ofNat 16 rest.length = cat16 nHi nLo := by rw [hl]; simp
      refine ⟨by simp [seqBytes, hn], ?_⟩
      have := (cat16 nHi nLo).isLt
      show rest.length ≤ 65535
      omega
    · simp at h

end Sys2Proof
end

