-- ==== Sys2Proof/Laws/Crc.lean ====
section
/-! SUPPORT. The algebra of the checksum: a bit step is linear over exclusive-or, and the loop splits at a concatenation
(42_crc16.md R132, R138). -/

namespace Sys2Proof.Machine

/-- A bit step is linear over exclusive-or (R132). -/
theorem bitstep_xor (a b : Half) : bitstep (a ^^^ b) = bitstep a ^^^ bitstep b := by
  have hs : (a ^^^ b) >>> 1 = a >>> 1 ^^^ b >>> 1 := BitVec.ushiftRight_xor_distrib a b 1
  have self (p q : Half) : p ^^^ q ^^^ q = p := by rw [BitVec.xor_assoc]; simp
  simp only [bitstep, BitVec.getLsbD_xor, hs]
  cases a.getLsbD 0 <;> cases b.getLsbD 0 <;> simp
  · ac_rfl
  · ac_rfl
  · rw [show a >>> 1 ^^^ Config.crcPoly ^^^ (b >>> 1 ^^^ Config.crcPoly)
        = (a >>> 1 ^^^ b >>> 1) ^^^ Config.crcPoly ^^^ Config.crcPoly by ac_rfl, self]

/-- Any number of bit steps is linear over exclusive-or. -/
theorem bitsteps_xor (k : Nat) (a b : Half) : bitsteps k (a ^^^ b) = bitsteps k a ^^^ bitsteps k b := by
  induction k generalizing a b with
  | zero => rfl
  | succ k ih => simp only [bitsteps, bitstep_xor, ih]

/-- A value is its high half and its low half together. -/
theorem high_xor_low (c : Half) : c = (cat16 (hi8 c) 0) ^^^ zext16 (lo8 c) := by
  apply BitVec.eq_of_getLsbD_eq
  intro i hi
  simp only [cat16, hi8, lo8, zext16, BitVec.getLsbD_xor, BitVec.getLsbD_append, BitVec.getLsbD_extractLsb',
    BitVec.getLsbD_setWidth]
  by_cases h : i < 8
  · simp [h, hi]
  · have h8 : 8 + (i - 8) = i := by omega
    have h' : i - 8 < 8 := by omega
    simp [h, h8, h']

/-- Eight bit steps move a high byte down untouched (R132). -/
theorem bitsteps_high (b : Byte) : bitsteps 8 (cat16 b 0) = zext16 b := by
  revert b; decide

/-- The listing of R130 has 256 entries. -/
theorem crcTab_length : crcTab.length = 256 := by decide +kernel

@[simp] theorem crc16From_nil (c : Half) : crc16From c [] = c := rfl

@[simp] theorem crc16From_cons (c : Half) (b : Byte) (bs : List Byte) :
    crc16From c (b :: bs) = crc16From (bytestepBit c b) bs := rfl

theorem crc16From_append (c : Half) (xs ys : List Byte) :
    crc16From c (xs ++ ys) = crc16From (crc16From c xs) ys := by
  simp [crc16From]

end Sys2Proof.Machine
end

