-- ==== Sys2Proof/Laws/Decode.lean ====
section
/-! SUPPORT. The opcode map read in both directions, and what the length of a command is. -/

namespace Sys2Proof

/-- Every opcode byte spells its own opcode (30_encoding.md R66). -/
@[simp] theorem opOf_byte (o : Op) : opOf o.byte = some o := by cases o <;> decide

/-- A byte that spells an opcode is that opcode's byte (R66). -/
theorem byte_of_opOf {b : Byte} {o : Op} (h : opOf b = some o) : o.byte = b := by
  have := List.find?_some h
  simpa using this

/-- The bytes of a sequence operand: two for the length, then the sequence (R65). -/
@[simp] theorem seqBytes_length (d : List Byte) : (seqBytes d).length = d.length + 2 := rfl

theorem decode_nil : decode [] = .error .empty := rfl

theorem decode_reserved {op : Byte} (h : opOf op = none) (bs : List Byte) :
    decode (op :: bs) = .error (.reserved op) := by simp [decode, h]

theorem decode_defined {op : Byte} {o : Op} (h : opOf op = some o) (bs : List Byte) :
    decode (op :: bs) = match operandsOf o bs with
      | none => .error (.wrongLength op)
      | some i => .ok i := by
  cases ho : operandsOf o bs <;> simp [decode, h, ho]

end Sys2Proof
end

