-- ==== Sys2Proof/Laws/HexText.lean ====
section
/-! SUPPORT. The digits of hexadecimal text (43_hex_text.md R150 to R153). -/

namespace Sys2Proof.Machine

/-- The digit of a nibble has that nibble's value (R150). -/
@[simp] theorem hexval_hexchar (n : Nibble) : hexval (hexchar n) = some n := by revert n; decide

/-- A byte is its two nibbles, high nibble first (R151, R152). -/
theorem nibbles_append (b : Byte) : (b.extractLsb' 4 4 ++ b.extractLsb' 0 4 : Byte) = b := by revert b; decide

@[simp] theorem hexenc_nil : hexenc [] = [] := rfl

@[simp] theorem hexenc_cons (b : Byte) (bs : List Byte) : hexenc (b :: bs) = hexPair b ++ hexenc bs := rfl

/-- Two digits per byte (R151). -/
@[simp] theorem hexenc_length (bs : List Byte) : (hexenc bs).length = 2 * bs.length := by
  induction bs with
  | nil => rfl
  | cons b bs ih => simp [hexPair, ih]; omega

/-- A byte is made of every two nibbles (R152). -/
theorem pairNibbles_length : ∀ v : List Nibble, (pairNibbles v).length = v.length / 2
  | [] => rfl
  | [_] => by simp [pairNibbles]
  | _ :: _ :: rest => by simp [pairNibbles, pairNibbles_length rest]; omega

/-- The padded digits are even in number (R153). -/
theorem padNibbles_length (v : List Nibble) : (padNibbles v).length = 2 * ((v.length + 1) / 2) := by
  unfold padNibbles
  split
  · simp only [List.length_cons]; omega
  · omega

/-- Where every character is a hex digit, the digits are as many as the characters. -/
theorem filterMap_hexval_length {t : List Byte} (h : firstNonHex t = none) :
    (t.filterMap hexval).length = t.length := by
  have h' : ∀ b ∈ t, (hexval b).isNone = false := by simpa [firstNonHex] using h
  clear h
  induction t with
  | nil => rfl
  | cons b t ih =>
    obtain ⟨n, hn⟩ : ∃ n, hexval b = some n := Option.isSome_iff_exists.mp (by
      have := h' b (by simp)
      cases hb : hexval b <;> simp_all)
    simp [hn, ih (fun c hc => h' c (by simp [hc]))]

/-- The error of hexdec is the index of the first non-hex character, which stands in the text (R152). -/
theorem hexdec_error_lt {t : List Byte} {i : Nat} (h : hexdec t = .error i) : i < t.length := by
  unfold hexdec at h
  split at h
  · rename_i j hj
    obtain rfl : j = i := by simpa using h
    simp only [firstNonHex, List.findIdx?_eq_some_iff_getElem] at hj
    exact hj.1
  · simp at h

/-- The number of bytes a text of hex digits decodes to (R152). -/
theorem hexdec_ok_length {t bs : List Byte} (h : hexdec t = .ok bs) : bs.length = (t.length + 1) / 2 := by
  unfold hexdec at h
  split at h
  · simp at h
  · rename_i hn
    obtain rfl : _ = bs := by simpa using h
    rw [pairNibbles_length, padNibbles_length, filterMap_hexval_length hn]
    omega

/-- Six bytes are the header of the fields they hold; another number of bytes has no fields (R156). -/
theorem fieldsOf_cases (bs : List Byte) :
    (bs.length ≠ 6 ∧ fieldsOf bs = none) ∨
    ∃ a f rHi rLo lHi lLo, bs = [a, f, rHi, rLo, lHi, lLo] ∧
      fieldsOf bs = some (a, f, cat16 rHi rLo, cat16 lHi lLo) := by
  obtain ⟨hl, h⟩ | ⟨a, f, rHi, rLo, lHi, lLo, rfl⟩ := frameOperand_cases bs
  · exact .inl ⟨hl, h⟩
  · exact .inr ⟨a, f, rHi, rLo, lHi, lLo, rfl, rfl⟩

end Sys2Proof.Machine
end

