-- ==== Sys2Proof/Laws/State.lean ====
section
/-! SUPPORT. One lemma per field per update of State, each true by `rfl` (or by cases on the register's name), so that no
later proof unfolds a record update. -/

namespace Sys2Proof.Machine

variable (s : State) (r : FrameReg) (v : Byte) (rsp : List Byte) (nbits w : Nat)

@[simp] theorem writeReg_response : (s.writeReg r v).response = s.response := by cases r <;> rfl
@[simp] theorem writeReg_port : (s.writeReg r v).port = s.port := by cases r <;> rfl
@[simp] theorem writeReg_frameReset : (s.writeReg r v).frameReset = s.frameReset := by cases r <;> rfl

@[simp] theorem forceFunction_response : s.forceFunction.response = s.response := rfl
@[simp] theorem forceFunction_port : s.forceFunction.port = s.port := rfl
@[simp] theorem forceFunction_frameReset : s.forceFunction.frameReset = s.frameReset := rfl
@[simp] theorem forceFunction_func : s.forceFunction.readReg .func = Config.forcedFunction := rfl

@[simp] theorem respond_frame : (s.respond rsp).frame = s.frame := rfl
@[simp] theorem respond_response : (s.respond rsp).response = some rsp := rfl
@[simp] theorem respond_port : (s.respond rsp).port = s.port := rfl
@[simp] theorem respond_frameReset : (s.respond rsp).frameReset = s.frameReset := rfl
@[simp] theorem respond_readReg : (s.respond rsp).readReg r = s.readReg r := by cases r <;> rfl

@[simp] theorem applyReset_frame : (applyReset s).frame = s.frameReset := rfl
@[simp] theorem applyReset_response : (applyReset s).response = none := rfl
@[simp] theorem applyReset_port : (applyReset s).port = s.port := rfl
@[simp] theorem applyReset_frameReset : (applyReset s).frameReset = s.frameReset := rfl

@[simp] theorem withFetchWord_frame : (s.withFetchWord nbits w).frame = s.frame := rfl
@[simp] theorem withFetchWord_response : (s.withFetchWord nbits w).response = s.response := rfl
@[simp] theorem withFetchWord_port :
    (s.withFetchWord nbits w).port = .command (tableBytes nbits w) :: s.port := rfl
@[simp] theorem withFetchWord_frameReset : (s.withFetchWord nbits w).frameReset = s.frameReset := rfl

/-- A register that was written reads as what was written. -/
@[simp] theorem readReg_writeReg_same : (s.writeReg r v).readReg r = v := by cases r <;> rfl

/-- Writing one register leaves every other one alone (10_state.md R23, R24). -/
theorem readReg_writeReg_of_ne {r r' : FrameReg} (h : r' ≠ r) : (s.writeReg r v).readReg r' = s.readReg r' := by
  cases r <;> cases r' <;> first | rfl | exact absurd rfl h

/-- Two frames whose registers read the same are the same frame. -/
theorem frame_eq_of_readReg {s t : State} (h : ∀ r, s.readReg r = t.readReg r) : s.frame = t.frame := by
  have h0 := h .addr; have h1 := h .func; have h2 := h .regH
  have h3 := h .regL; have h4 := h .lenH; have h5 := h .lenL
  cases hs : s.frame; cases ht : t.frame
  simp_all [State.readReg]

end Sys2Proof.Machine
end

