-- ==== Sys2Proof/Laws/Ops.lean ====
section
/-! SUPPORT. What each shared operation can do, said once. -/

namespace Sys2Proof.Machine

/-- A success: the state with the response, and nothing else. -/
theorem respondOk_eq (bs : List Byte) (s : State) :
    respondOk bs s = .next { s with response := some (0x00 :: bs) } := rfl

/-- An error: the state with the error response, and nothing else (60_exceptions.md R181). -/
theorem raiseError_eq (e : ErrorCause) (info : Half) (s : State) :
    raiseError e info s = .next { s with response := some [e.code, hi8 info, lo8 info] } := rfl

theorem respondOk_next {bs : List Byte} {s t : State} (h : respondOk bs s = .next t) :
    t = { s with response := some (0x00 :: bs) } := by
  rw [respondOk_eq] at h
  injection h with h
  exact h.symm

theorem raiseError_next {e : ErrorCause} {info : Half} {s t : State} (h : raiseError e info s = .next t) :
    t = { s with response := some [e.code, hi8 info, lo8 info] } := by
  rw [raiseError_eq] at h
  injection h with h
  exact h.symm

@[simp] theorem statusOk_eq : statusOk = 0x00 := rfl
@[simp] theorem code_illegalCommand : ErrorCause.illegalCommand.code = 0x01 := rfl
@[simp] theorem code_malformedHex : ErrorCause.malformedHex.code = 0x02 := rfl

/-- The three infos of an IllegalCommand, byte by byte (30_encoding.md R71). -/
theorem info_bytes_reserved (op : Byte) :
    hi8 (DecodeError.reserved op).info = 0x01 ∧ lo8 (DecodeError.reserved op).info = op := by
  revert op; decide

theorem info_bytes_wrongLength (op : Byte) :
    hi8 (DecodeError.wrongLength op).info = 0x02 ∧ lo8 (DecodeError.wrongLength op).info = op := by
  revert op; decide

end Sys2Proof.Machine
end

