-- ==== Sys2Proof/Laws/PerInstr.lean ====
section
/-! SUPPORT. The family EncodeShape: the bytes that spell a well-formed command open with its opcode and have the one
length its format requires (30_encoding.md R60 to R66). -/

namespace Sys2Proof.Laws.EncodeShape

/-- The shape of a command's encoding. -/
def Statement (i : Instr) : Prop :=
  i.wf = true → (encode i).head? = some i.op.byte ∧
    (encode i).length = i.op.format.length (BitVec.ofNat 16 i.seq.length)

/-- A well-formed sequence has the length its 16-bit length field says (R65). -/
theorem length_field {d : List Byte} (h : d.length ≤ Config.maxSeq) :
    d.length + 2 + 1 = 3 + (BitVec.ofNat 16 d.length).toNat := by
  have h' : d.length < 65536 := by
    have : Config.maxSeq = 65535 := rfl
    omega
  rw [BitVec.toNat_ofNat, Nat.mod_eq_of_lt h']
  omega

theorem setaddr (v : Byte) : Statement (.setaddr v) := fun _ => ⟨rfl, rfl⟩
theorem setfunc (v : Byte) : Statement (.setfunc v) := fun _ => ⟨rfl, rfl⟩
theorem setregh (v : Byte) : Statement (.setregh v) := fun _ => ⟨rfl, rfl⟩
theorem setregl (v : Byte) : Statement (.setregl v) := fun _ => ⟨rfl, rfl⟩
theorem setlenh (v : Byte) : Statement (.setlenh v) := fun _ => ⟨rfl, rfl⟩
theorem setlenl (v : Byte) : Statement (.setlenl v) := fun _ => ⟨rfl, rfl⟩
theorem setreg (v : Half) : Statement (.setreg v) := fun _ => ⟨rfl, rfl⟩
theorem setlen (v : Half) : Statement (.setlen v) := fun _ => ⟨rfl, rfl⟩
theorem emit : Statement .emit := fun _ => ⟨rfl, rfl⟩
theorem encode (a f : Byte) (r l : Half) : Statement (.encode a f r l) := fun _ => ⟨rfl, rfl⟩
theorem crc16 (d : List Byte) : Statement (.crc16 d) := fun h => ⟨rfl, length_field (of_decide_eq_true h)⟩
theorem hexenc (d : List Byte) : Statement (.hexenc d) := fun h => ⟨rfl, length_field (of_decide_eq_true h)⟩
theorem hexdec (t : List Byte) : Statement (.hexdec t) := fun h => ⟨rfl, length_field (of_decide_eq_true h)⟩
theorem decode6 (t : List Byte) : Statement (.decode6 t) := fun h => ⟨rfl, length_field (of_decide_eq_true h)⟩

end Sys2Proof.Laws.EncodeShape
end

