-- ==== Sys2Proof/Laws/Step.lean ====
section
/-! SUPPORT. What a meaning and a step can do, said once: the three shapes of a meaning's effect, and the events a step
takes from the port. -/

namespace Sys2Proof.Machine

/-- HEXDEC either answers the bytes or raises MalformedHexError (43_hex_text.md R155). -/
theorem execHexdec_cases (t : List Byte) (s : State) :
    (∃ i, hexdec t = .error i ∧ execHexdec t s = raiseError .malformedHex (BitVec.ofNat 16 i) s) ∨
    (∃ bs, hexdec t = .ok bs ∧ execHexdec t s = respondOk bs s) := by
  unfold execHexdec
  cases h : hexdec t with
  | error i => exact .inl ⟨i, rfl, rfl⟩
  | ok bs => exact .inr ⟨bs, rfl, rfl⟩

/-- DECODE6 raises the index, or 0xFFFF, or answers the six bytes it decoded (R156). -/
theorem execDecode6_cases (t : List Byte) (s : State) :
    (∃ i, hexdec t = .error i ∧ execDecode6 t s = raiseError .malformedHex (BitVec.ofNat 16 i) s) ∨
    (∃ bs, hexdec t = .ok bs ∧ bs.length ≠ 6 ∧ execDecode6 t s = raiseError .malformedHex notSixBytes s) ∨
    (∃ bs, hexdec t = .ok bs ∧ bs.length = 6 ∧ execDecode6 t s = respondOk bs s) := by
  unfold execDecode6
  cases h : hexdec t with
  | error i => exact .inl ⟨i, rfl, rfl⟩
  | ok bs =>
    obtain ⟨hl, hf⟩ | ⟨a, f, rHi, rLo, lHi, lLo, rfl, hf⟩ := fieldsOf_cases bs
    · exact .inr (.inl ⟨bs, rfl, hl, by simp [hf]⟩)
    · exact .inr (.inr ⟨_, rfl, rfl, by simp [hf]⟩)

/-- The three shapes of a meaning: a setter answers `00` after writing registers, a command that writes no register answers
a payload, or it raises MalformedHexError. -/
theorem exec_cases (i : Instr) (s : State) :
    (∃ fr, exec i s = .next { s with frame := fr, response := some [0x00] }) ∨
    (∃ bs, exec i s = respondOk bs s) ∨
    (∃ info, exec i s = raiseError .malformedHex info s) := by
  cases i with
  | setaddr v => exact .inl ⟨_, rfl⟩
  | setfunc v => exact .inl ⟨_, rfl⟩
  | setregh v => exact .inl ⟨_, rfl⟩
  | setregl v => exact .inl ⟨_, rfl⟩
  | setlenh v => exact .inl ⟨_, rfl⟩
  | setlenl v => exact .inl ⟨_, rfl⟩
  | setreg v => exact .inl ⟨_, rfl⟩
  | setlen v => exact .inl ⟨_, rfl⟩
  | emit => exact .inr (.inl ⟨_, rfl⟩)
  | encode a f r l => exact .inr (.inl ⟨_, rfl⟩)
  | crc16 d => exact .inr (.inl ⟨_, rfl⟩)
  | hexenc d => exact .inr (.inl ⟨_, rfl⟩)
  | hexdec t =>
    obtain ⟨i, _, h⟩ | ⟨bs, _, h⟩ := execHexdec_cases t s
    · exact .inr (.inr ⟨_, h⟩)
    · exact .inr (.inl ⟨_, h⟩)
  | decode6 t =>
    obtain ⟨i, _, h⟩ | ⟨bs, _, _, h⟩ | ⟨bs, _, _, h⟩ := execDecode6_cases t s
    · exact .inr (.inr ⟨_, h⟩)
    · exact .inr (.inr ⟨_, h⟩)
    · exact .inr (.inl ⟨_, h⟩)

/-- What a host presents later does not act on a command: it executes the same with another port. -/
theorem exec_port (i : Instr) (s : State) (p : List PortEvent) :
    ∀ t, exec i s = .next t → exec i { s with port := p } = .next { t with port := p } := by
  intro t h
  cases i with
  | hexdec x =>
    obtain ⟨k, hk, e⟩ | ⟨bs, hb, e⟩ := execHexdec_cases x s
    · rw [show exec (.hexdec x) s = _ from e] at h
      rw [raiseError_next h]
      simp only [exec, execHexdec, hk]
      rfl
    · rw [show exec (.hexdec x) s = _ from e] at h
      rw [respondOk_next h]
      simp only [exec, execHexdec, hb]
      rfl
  | decode6 x =>
    obtain ⟨k, hk, e⟩ | ⟨bs, hb, hl, e⟩ | ⟨bs, hb, hl, e⟩ := execDecode6_cases x s
    · rw [show exec (.decode6 x) s = _ from e] at h
      rw [raiseError_next h]
      simp only [exec, execDecode6, hk]
      rfl
    · rw [show exec (.decode6 x) s = _ from e] at h
      rw [raiseError_next h]
      obtain ⟨_, hf⟩ | ⟨_, _, _, _, _, _, rfl, _⟩ := fieldsOf_cases bs
      · simp only [exec, execDecode6, hb, hf]; rfl
      · exact absurd rfl hl
    · rw [show exec (.decode6 x) s = _ from e] at h
      rw [respondOk_next h]
      obtain ⟨hn, _⟩ | ⟨_, _, _, _, _, _, rfl, hf⟩ := fieldsOf_cases bs
      · exact absurd hl hn
      · simp only [exec, execDecode6, hb, hf, hi8_cat16, lo8_cat16]; rfl
  | _ => injection h with h; subst h; rfl

theorem step_idle {s : State} (h : s.port = []) : step s = .next s := by
  unfold step; rw [h]; rfl

theorem step_reset {s : State} {rest : List PortEvent} (h : s.port = .reset :: rest) :
    step s = .next (applyReset { s with port := rest }) := by
  unfold step; rw [h]

theorem step_command {s : State} {cmd : List Byte} {rest : List PortEvent} (h : s.port = .command cmd :: rest) :
    step s = runCommand cmd { s with port := rest } := by
  unfold step; rw [h]

/-- What one step does, guards included: nothing, a reset, an illegal command answered, or a decoded command executed. -/
theorem step_cases (s : State) :
    (s.port = [] ∧ step s = .next s) ∨
    (∃ rest, s.port = .reset :: rest ∧ step s = .next (applyReset { s with port := rest })) ∨
    (∃ cmd rest e, s.port = .command cmd :: rest ∧ decode cmd = .error e ∧
      step s = raiseIllegal e { s with port := rest }) ∨
    (∃ cmd rest i, s.port = .command cmd :: rest ∧ decode cmd = .ok i ∧ step s = exec i { s with port := rest }) := by
  cases hp : s.port with
  | nil => exact .inl ⟨rfl, step_idle hp⟩
  | cons ev rest =>
    cases ev with
    | reset => exact .inr (.inl ⟨rest, rfl, step_reset hp⟩)
    | command cmd =>
      cases hd : decode cmd with
      | error e => exact .inr (.inr (.inl ⟨cmd, rest, e, rfl, hd, by rw [step_command hp, runCommand, hd]⟩))
      | ok i => exact .inr (.inr (.inr ⟨cmd, rest, i, rfl, hd, by rw [step_command hp, runCommand, hd]⟩))

/-- A run of `k + 1` steps is one step and a run of `k` (Host/Core.lean). -/
theorem run_succ_of_step {M : Host.Core} {k : Nat} {s t : M.State} (h : M.step s = .next t) :
    M.run (k + 1) s = M.run k t := by
  simp [Host.Core.run, h]

end Sys2Proof.Machine
end

