-- ==== Sys2Proof/Tests/Slice0.lean ====
section
/-! SUPPORT. Tests. The expected results are the vectors of spec/95_test_vectors.md (V<n>) and the worked examples of the
command rules; the byte strings are written out from the formats of 30_encoding.md R61 to R65. The witnesses at the end meet
the hypotheses of the statements. -/

-- Each `decide +kernel` run in a thread of its own takes a stack of its own: one after the other they need one.
set_option Elab.async false

namespace Sys2Proof.Tests

open Sys2Proof Sys2Proof.Machine Sys2Proof.Claims

/-- A state with the six registers given and nothing presented. -/
def regs (a f rH rL lH lL : Byte) : State := State.resetWith ⟨a, f, rH, rL, lH, lL⟩

/-- The six registers and the response after one step on a presented byte string. -/
def present (cmd : List Byte) (s : State) : Option (Frame × Option (List Byte)) :=
  match step { s with port := [.command cmd] } with
  | .next t => some (t.frame, t.response)
  | .fault _ => none
  | .refused _ => none

/-! ## Decoding, one written-out byte string for each constructor -/

theorem test_decode_setaddr : decode [0x10, 0x11] = .ok (.setaddr 0x11) := by decide
theorem test_decode_setfunc : decode [0x11, 0x04] = .ok (.setfunc 0x04) := by decide
theorem test_decode_setregh : decode [0x12, 0x9C] = .ok (.setregh 0x9C) := by decide
theorem test_decode_setregl : decode [0x13, 0x6B] = .ok (.setregl 0x6B) := by decide
theorem test_decode_setlenh : decode [0x14, 0x01] = .ok (.setlenh 0x01) := by decide
theorem test_decode_setlenl : decode [0x15, 0x0A] = .ok (.setlenl 0x0A) := by decide
theorem test_decode_setreg : decode [0x18, 0x9C, 0x40] = .ok (.setreg 0x9C40) := by decide
theorem test_decode_setlen : decode [0x19, 0x00, 0x7D] = .ok (.setlen 0x007D) := by decide
theorem test_decode_emit : decode [0x20] = .ok .emit := by decide
theorem test_decode_encode :
    decode [0x21, 0x80, 0x10, 0xAB, 0xCD, 0x00, 0xFF] = .ok (.encode 0x80 0x10 0xABCD 0x00FF) := by decide
theorem test_decode_crc16 : decode [0x30, 0x00, 0x02, 0x01, 0x03] = .ok (.crc16 [0x01, 0x03]) := by decide
theorem test_decode_hexenc : decode [0x40, 0x00, 0x03, 0xAB, 0xCD, 0xEF] = .ok (.hexenc [0xAB, 0xCD, 0xEF]) := by decide
theorem test_decode_hexdec : decode [0x41, 0x00, 0x02, 0x30, 0x67] = .ok (.hexdec [0x30, 0x67]) := by decide
theorem test_decode_decode6 : decode [0x42, 0x00, 0x01, 0x31] = .ok (.decode6 [0x31]) := by decide

/-- The length field is high byte first (V4.12: a length field of 0x0100). -/
theorem test_decode_length_high_byte_first : decode (0x30 :: 0x01 :: 0x00 :: List.replicate 256 0x00) =
    .ok (.crc16 (List.replicate 256 0x00)) := by decide +kernel

/-! ## Rejection by name (V6.1 to V6.8) -/

theorem test_reject_empty : decode [] = .error .empty := by decide
theorem test_reject_reserved : decode [0x16, 0x01] = .error (.reserved 0x16) := by decide
theorem test_reject_short : decode [0x10] = .error (.wrongLength 0x10) := by decide
theorem test_reject_long : decode [0x18, 0x01, 0x02, 0x03] = .error (.wrongLength 0x18) := by decide
theorem test_reject_length_field : decode [0x30, 0x00, 0x02, 0xAA] = .error (.wrongLength 0x30) := by decide
theorem test_reject_cut_length_field : decode [0x30, 0x00] = .error (.wrongLength 0x30) := by decide
theorem test_reject_trailing : decode [0x20, 0x00] = .error (.wrongLength 0x20) := by decide

/-- 242 of the 256 opcodes are reserved (R66). -/
theorem test_reserved_count :
    ((List.range 256).filter (fun n => (opOf (BitVec.ofNat 8 n)).isNone)).length = 242 := by decide +kernel

/-! ## Well-formedness: an ill-formed term for each check -/

/-- Whether a format S command on `n` equal bytes is well formed. -/
theorem wf_replicate (f : List Byte → Instr) (hf : ∀ d, (f d).seq = d) (n : Nat) (b : Byte) :
    (f (List.replicate n b)).wf = decide (n ≤ 65535) := by
  rw [Instr.wf, hf, List.length_replicate]; rfl

theorem test_wf_refuses_crc16 : (Instr.crc16 (List.replicate 65536 0x00)).wf = false :=
  (wf_replicate .crc16 (fun _ => rfl) 65536 0x00).trans (by decide)
theorem test_wf_refuses_hexenc : (Instr.hexenc (List.replicate 65536 0x00)).wf = false :=
  (wf_replicate .hexenc (fun _ => rfl) 65536 0x00).trans (by decide)
theorem test_wf_refuses_hexdec : (Instr.hexdec (List.replicate 65536 0x30)).wf = false :=
  (wf_replicate .hexdec (fun _ => rfl) 65536 0x30).trans (by decide)
theorem test_wf_refuses_decode6 : (Instr.decode6 (List.replicate 65536 0x30)).wf = false :=
  (wf_replicate .decode6 (fun _ => rfl) 65536 0x30).trans (by decide)
theorem test_wf_accepts_longest : (Instr.crc16 (List.replicate 65535 0x00)).wf = true :=
  (wf_replicate .crc16 (fun _ => rfl) 65535 0x00).trans (by decide)

/-! ## Setters (V3.1 to V3.9) -/

theorem test_setaddr : present [0x10, 0x11] (regs 0x00 0x04 0x12 0x34 0x00 0x02) =
    some (⟨0x11, 0x03, 0x12, 0x34, 0x00, 0x02⟩, some [0x00]) := by decide
/-- V3.9: the operand equals the old value, and FUNC is still forced. -/
theorem test_setaddr_same_value : present [0x10, 0x01] (regs 0x01 0x04 0x00 0x00 0x00 0x0A) =
    some (⟨0x01, 0x03, 0x00, 0x00, 0x00, 0x0A⟩, some [0x00]) := by decide
theorem test_setfunc : present [0x11, 0x04] (regs 0x11 0x03 0x00 0x6B 0x00 0x03) =
    some (⟨0x11, 0x04, 0x00, 0x6B, 0x00, 0x03⟩, some [0x00]) := by decide
theorem test_setregh : present [0x12, 0x9C] (regs 0x01 0x10 0x00 0x6B 0x00 0x03) =
    some (⟨0x01, 0x03, 0x9C, 0x6B, 0x00, 0x03⟩, some [0x00]) := by decide
theorem test_setregl : present [0x13, 0x6B] (regs 0x01 0x03 0x00 0x00 0x00 0x0A) =
    some (⟨0x01, 0x03, 0x00, 0x6B, 0x00, 0x0A⟩, some [0x00]) := by decide
theorem test_setlenh : present [0x14, 0x01] (regs 0x01 0x06 0x00 0x00 0x00 0x0A) =
    some (⟨0x01, 0x03, 0x00, 0x00, 0x01, 0x0A⟩, some [0x00]) := by decide
theorem test_setlenl : present [0x15, 0x0A] (regs 0x00 0x04 0x00 0x00 0x00 0x00) =
    some (⟨0x00, 0x03, 0x00, 0x00, 0x00, 0x0A⟩, some [0x00]) := by decide
theorem test_setreg : present [0x18, 0x9C, 0x40] (regs 0x01 0x04 0x00 0x00 0x00 0x0A) =
    some (⟨0x01, 0x03, 0x9C, 0x40, 0x00, 0x0A⟩, some [0x00]) := by decide
theorem test_setlen : present [0x19, 0x00, 0x7D] (regs 0x01 0x04 0x00 0x00 0x00 0x0A) =
    some (⟨0x01, 0x03, 0x00, 0x00, 0x00, 0x7D⟩, some [0x00]) := by decide

/-! ## Frame producers (V2.1, V2.11, V2.12, R35) -/

theorem test_emit : present [0x20] (regs 0x01 0x03 0x00 0x00 0x00 0x0A) =
    some (⟨0x01, 0x03, 0x00, 0x00, 0x00, 0x0A⟩,
      some [0x00, 0x01, 0x03, 0x00, 0x00, 0x00, 0x0A, 0xC5, 0xCD]) := by decide +kernel
/-- V2.11: every byte distinct, both byte orders at once; the Frame is not touched (P3). -/
theorem test_encode : present [0x21, 0x0A, 0x03, 0x12, 0x34, 0x56, 0x78] (regs 0x05 0x10 0x12 0x34 0x00 0x02) =
    some (⟨0x05, 0x10, 0x12, 0x34, 0x00, 0x02⟩,
      some [0x00, 0x0A, 0x03, 0x12, 0x34, 0x56, 0x78, 0x3F, 0x85]) := by decide +kernel
theorem test_encode_function_as_given : encode8 0x80 0x10 0xABCD 0x00FF =
    [0x80, 0x10, 0xAB, 0xCD, 0x00, 0xFF, 0x2F, 0x83] := by decide +kernel
/-- R35: the FRAME output of the instantiation of FRAME_RESET. -/
theorem test_frame_output_at_reset :
    State.reset.frameOut = [0x00, 0x03, 0x00, 0x00, 0x00, 0x00, 0x44, 0x1B] := by decide +kernel

/-! ## Checksum (V1.1, V4.1 to V4.10) -/

/-- V4.8: the text "123456789"; the response is low byte first. -/
theorem test_crc16_check_input :
    present [0x30, 0x00, 0x09, 0x31, 0x32, 0x33, 0x34, 0x35, 0x36, 0x37, 0x38, 0x39] (regs 0 7 0 0 0 0) =
    some (⟨0, 7, 0, 0, 0, 0⟩, some [0x00, 0x37, 0x4B]) := by decide +kernel
/-- V4.1: the empty sequence. -/
theorem test_crc16_empty : present [0x30, 0x00, 0x00] (regs 0 0 0 0 0 0) =
    some (⟨0, 0, 0, 0, 0, 0⟩, some [0x00, 0xFF, 0xFF]) := by decide
/-- The eight bit steps of byte 0 in V1.1. -/
theorem test_bit_steps : [1, 2, 3, 4, 5, 6, 7, 8].map (fun k => bitsteps k 0xFFFE) =
    [0x7FFF, 0x9FFE, 0x4FFF, 0x87FE, 0x43FF, 0x81FE, 0x40FF, 0x807E] := by decide
/-- The table-driven trace of V1.1. -/
theorem test_table_trace : bytestepTab 0xFFFF 0x01 = 0x807E ∧ bytestepTab 0x807E 0x03 = 0x2140 ∧
    bytestepTab 0x8419 0x0A = 0xCDC5 := by decide +kernel
/-- Table spot checks (95_test_vectors.md 2.3). -/
theorem test_table_spots : crcTabAt 0x02 = 0xC181 ∧ crcTabAt 0x13 = 0xCD41 ∧ crcTabAt 0x7D = 0x21C0 ∧
    crcTabAt 0xF1 = 0x84C1 ∧ crcTabAt 0xFE = 0x8081 ∧ crcTabAt 0xFF = 0x4040 := by decide +kernel

/-! ## Text functions (V5, V6) -/

theorem test_hexenc : present [0x40, 0x00, 0x03, 0xAB, 0xCD, 0xEF] (regs 0 7 0 0 0 0) =
    some (⟨0, 7, 0, 0, 0, 0⟩, some [0x00, 0x41, 0x42, 0x43, 0x44, 0x45, 0x46]) := by decide
/-- V5.6: odd length and lower case. -/
theorem test_hexdec_odd_lower : present [0x41, 0x00, 0x03, 0x61, 0x62, 0x63] (regs 0 7 0 0 0 0) =
    some (⟨0, 7, 0, 0, 0, 0⟩, some [0x00, 0x0A, 0xBC]) := by decide
/-- V6.10: the space at index 2. -/
theorem test_hexdec_space : present [0x41, 0x00, 0x05, 0x31, 0x32, 0x20, 0x33, 0x34] (regs 7 3 0 0 0 0) =
    some (⟨7, 3, 0, 0, 0, 0⟩, some [0x02, 0x00, 0x02]) := by decide
/-- V5.13: 11 digits. -/
theorem test_decode6_eleven_digits :
    present [0x42, 0x00, 0x0B, 0x31, 0x30, 0x33, 0x30, 0x30, 0x30, 0x30, 0x30, 0x30, 0x30, 0x41] (regs 0 7 0 0 0 0) =
    some (⟨0, 7, 0, 0, 0, 0⟩, some [0x00, 0x01, 0x03, 0x00, 0x00, 0x00, 0x0A]) := by decide +kernel
/-- V6.11 and V6.15: too short, and too short and malformed. -/
theorem test_decode6_errors :
    present [0x42, 0x00, 0x04, 0x30, 0x31, 0x30, 0x33] (regs 7 3 0 0 0 0) =
      some (⟨7, 3, 0, 0, 0, 0⟩, some [0x02, 0xFF, 0xFF]) ∧
    present [0x42, 0x00, 0x02, 0x30, 0x67] (regs 7 3 0 0 0 0) =
      some (⟨7, 3, 0, 0, 0, 0⟩, some [0x02, 0x00, 0x01]) := by decide

/-! ## Illegal commands, reset and the port -/

/-- V6.1, V6.3 and V6.16. -/
theorem test_illegal_responses :
    (present [] (regs 7 3 0 0 0 0)).map Prod.snd = some (some [0x01, 0x00, 0x00]) ∧
    present [0x16, 0x01] (regs 7 3 0 0 0 0) = some (⟨7, 3, 0, 0, 0, 0⟩, some [0x01, 0x01, 0x16]) ∧
    (present [0x41, 0x00, 0x03, 0x30, 0x67] (regs 7 3 0 0 0 0)).map Prod.snd = some (some [0x01, 0x02, 0x41]) := by
  decide
/-- R200: reset loads FRAME_RESET and leaves no response. -/
theorem test_reset_event :
    step { regs 1 2 3 4 5 6 with frame := ⟨9, 9, 9, 9, 9, 9⟩, response := some [0x00], port := [.reset] } =
      .next (regs 1 2 3 4 5 6) := by rfl
theorem test_table_word : decodeTableWord 16 0x1110 = some (.setaddr 0x11) ∧
    decodeTableWord 24 0x409C18 = some (.setreg 0x9C40) ∧ decodeTableWord 8 0x20 = some .emit := by decide
theorem test_table_word_pads_with_zeros : decodeTableWord 24 0x020030 = some (.crc16 [0x00, 0x00]) ∧
    decodeTableWord 8 0x10 = some (.setaddr 0x00) ∧ decodeTableWord 16 0x0016 = none := by decide
theorem test_fetch_word_runs : step (State.reset.withFetchWord 16 0x1110) = exec (.setaddr 0x11) State.reset := by rfl

/-! ## Notation (R72, R73) -/

theorem test_asm_program : Asm.program "SETADDR 0x07 ; P4\n\n.empty\nSETREGB 0x12, 52".toList =
    some [.command [0x10, 0x07], .command [], .command [0x12, 0x12], .command [0x13, 0x34]] := by decide +kernel
theorem test_asm_text : Asm.line "DECODE6 \"0g;,\"".toList = some [[0x42, 0x00, 0x04, 0x30, 0x67, 0x3B, 0x2C]] ∧
    Asm.line "CRC16 []".toList = some [[0x30, 0x00, 0x00]] ∧ Asm.line "SETADDR 256".toList = none := by decide +kernel

/-! ## Witnesses: for each statement with hypotheses, a concrete state and operands that meet all of them together -/

/-- A state with a command presented and a reset after it. -/
def presenting (cmd : List Byte) : State := { regs 7 4 0 0 0 0 with port := [.command cmd, .reset] }

theorem witness_SetfuncAloneWritesFuncFreely :
    (∃ t, exec (.setfunc 0x04) (regs 1 3 0 0 0 0) = .next t ∧ t.frame.func ≠ (regs 1 3 0 0 0 0).frame.func ∧
      t.frame.func ≠ 0x03) ∧
    (∃ t, step (presenting [0x10, 0x01]) = .next t ∧ t.frame.func ≠ (presenting [0x10, 0x01]).frame.func) :=
  ⟨⟨_, rfl, by decide, by decide⟩, ⟨_, rfl, by decide⟩⟩
theorem witness_FieldSettersForceFunctionThree :
    [Instr.setaddr 0, .setregh 0, .setregl 0, .setlenh 0, .setlenl 0xFF, .setreg 0, .setlen 0xFFFF].all isFieldSetter = true :=
  by decide
theorem witness_SetterSequenceLeavesLastWrites :
    ∀ i ∈ [Instr.setreg 0x1234, .setfunc 4, .setregl 0x56], isSetter i = true := by decide
theorem witness_SettersCommuteAndRepeat : isFieldSetter (.setregh 0x12) = true ∧ isFieldSetter (.setlen 0x78) = true ∧
    (∀ r, r ≠ .func → writes r (.setregh 0x12) = none ∨ writes r (.setlen 0x78) = none) ∧
    isSetter (.setfunc 4) = true :=
  ⟨rfl, rfl, fun r _ => by cases r <;> simp_all [writes], rfl⟩
theorem witness_SetfuncBeforeFieldSetterIsLost : isFieldSetter (.setlenl 0x0B) = true := rfl
theorem witness_PseudoInstructionsExpandAndLoad : 0 < 4 ∧ 4 ≤ (Pseudo.loadframe 1 3 0 10).expand.length := by decide
theorem witness_CommandsWriteOnlyTheirRegisters : ∃ t, exec (.setreg 0x9C40) (regs 1 4 0 0 0 10) = .next t := ⟨_, rfl⟩
theorem witness_FrameOutputIsAFunctionOfTheRegisters :
    (presenting [0x20]).frame = (regs 7 4 0 0 0 0).frame ∧ presenting [0x20] ≠ regs 7 4 0 0 0 0 := by decide
theorem witness_HeaderIsABijection : ([0x11, 0x03, 0x00, 0x6B, 0x00, 0x03] : List Byte).length = 6 := rfl
/-- The length field at 0 and at its largest value. -/
theorem witness_length_field : ([] : List Byte).length = (0x00 : Byte).toNat * 256 + (0x00 : Byte).toNat ∧
    (List.replicate 65535 (0x30 : Byte)).length = (0xFF : Byte).toNat * 256 + (0xFF : Byte).toNat :=
  ⟨by decide, by rw [List.length_replicate]; decide⟩
theorem witness_HexdecKeepsTheNumber : AllHex [0x41, 0x62, 0x39] ∧ AllHex [] ∧ FirstNonHexAt [0x30, 0x67] 1 :=
  ⟨by unfold AllHex; decide, by unfold AllHex; decide,
    ⟨0x67, by decide, by decide⟩, fun j b hj hb => by
      obtain rfl : j = 0 := by omega
      obtain rfl : 0x30 = b := by simpa using hb
      decide⟩
theorem witness_OddTextFirstDigitStandsAlone : AllHex [0x41, 0x42, 0x43] ∧ ([0x42, 0x43] : List Byte).length % 2 = 0 :=
  ⟨by unfold AllHex; decide, rfl⟩
/-- A non-hex character at index 0, the smallest, with a length that would be wrong too. -/
theorem witness_HexdecAnswersBytesOrIndex : AllHex [0x30, 0x66] ∧ FirstNonHexAt [0x47] 0 :=
  ⟨by unfold AllHex; decide, ⟨0x47, by decide, by decide⟩, fun j b hj => by omega⟩
/-- 11 and 12 digits, and 10, 13 and 0 digits. -/
theorem witness_Decode6AnswersSixBytesOrError :
    (∀ n ∈ [0, 10, 11, 12, 13], AllHex (List.replicate n 0x30)) ∧ (List.replicate 11 (0x30 : Byte)).length = 11 ∧
    (List.replicate 10 (0x30 : Byte)).length ≠ 11 ∧ (List.replicate 13 (0x30 : Byte)).length ≠ 12 ∧
    FirstNonHexAt [0x20] 0 :=
  ⟨by unfold AllHex; decide, by decide, by decide, by decide, ⟨0x20, by decide, by decide⟩, fun j b hj => by omega⟩
theorem witness_HexRoundTrip : (List.replicate 32767 (0xAB : Byte)).length ≤ 32767 := by
  rw [List.length_replicate]
theorem witness_HexencOfHexdecNormalises : AllHex [0x61, 0x62, 0x63] := by unfold AllHex; decide
/-- The three clauses: the reserved opcode 0x16, a defined opcode with a wrong length, and a good command. -/
theorem witness_DecodeFollowsTheOrderOfTests : 0x16 ∉ definedOpcodes ∧ 0x43 ∉ definedOpcodes ∧
    (0x10 ∈ definedOpcodes ∧ ¬ LengthOk 0x10 [0x10]) ∧ (0x20 ∈ definedOpcodes ∧ LengthOk 0x20 [0x20]) ∧
    (0x42 ∈ definedOpcodes ∧ LengthOk 0x42 [0x42, 0x00, 0x00]) :=
  ⟨by decide, by decide, ⟨by decide, by simp [LengthOk]⟩, ⟨by decide, by simp [LengthOk]⟩,
    ⟨by decide, by simp [LengthOk]⟩⟩
theorem witness_DecodeOfEncodeIsTheCommand : (Instr.crc16 (List.replicate 65535 0x00)).wf = true ∧
    (Instr.encode 0xFF 0x00 0xFFFF 0x0001).wf = true := ⟨test_wf_accepts_longest, by decide⟩
theorem witness_EncodeOfDecodeIsTheBytes : decode [0x41, 0x00, 0x01, 0x20] = .ok (.hexdec [0x20]) := by decide
theorem witness_EveryCommandEndsInOkOrErr : (presenting [0xFF]).port = .command [0xFF] :: [.reset] := rfl
/-- The empty command, a reserved opcode and a wrong length. -/
theorem witness_IllegalCommandAnswersAndWritesNothing :
    (presenting []).port = .command [] :: [.reset] ∧ (presenting [0x43]).port = .command [0x43] :: [.reset] ∧
    0x43 ∉ definedOpcodes ∧ 0x21 ∈ definedOpcodes ∧ ¬ LengthOk 0x21 [0x21, 0x01, 0x03, 0x00, 0x00, 0x00] :=
  ⟨rfl, rfl, by decide, by decide, by simp [LengthOk]⟩
theorem witness_MalformedHexComesFromTextCommands :
    decode [0x41, 0x00, 0x02, 0x30, 0x67] = .ok (.hexdec [0x30, 0x67]) ∧ FirstNonHexAt [0x30, 0x67] 1 ∧
    decode [0x42, 0x00, 0x00] = .ok (.decode6 []) ∧ AllHex [] ∧ (([] : List Byte).length + 1) / 2 ≠ 6 ∧
    ∃ t, step (presenting [0x42, 0x00, 0x00]) = .next t ∧ t.response = some (0x02 :: [0xFF, 0xFF]) :=
  ⟨by decide, witness_HexdecKeepsTheNumber.2.2, by decide, by unfold AllHex; decide, by decide, _, rfl, by decide⟩
theorem witness_ErrorsLeaveTheNextEventUnaffected :
    (presenting [0x16]).port = .command [0x16] :: .reset :: [] ∧
    ∃ t, step (presenting [0x16]) = .next t ∧ t.response = some (0x01 :: [0x01, 0x16]) ∧ (0x01 : Byte) ≠ 0x00 :=
  ⟨rfl, _, rfl, by decide, by decide⟩
theorem witness_PayloadsHaveTheirLengths :
    ∃ t, exec (.hexdec [0x31]) (regs 0 0 0 0 0 0) = .next t ∧ t.response = some (0x00 :: [0x01]) := ⟨_, rfl, by decide⟩
theorem witness_PureCommandsIgnoreTheRegisters :
    [Instr.encode 1 3 0 10, .crc16 [], .hexenc [], .hexdec [0x20], .decode6 []].all isPure = true := by decide
theorem witness_EffectDependsOnRegistersAndCommand : (presenting []).frame = (regs 7 4 0 0 0 0).frame := rfl
theorem witness_StepRunsTheDecodedCommand : (presenting [0x20]).port = .command [0x20] :: [.reset] ∧
    decode [0x20] = .ok .emit := by decide
theorem witness_RunOfPresentedCommandsExecutesInOrder :
    (∀ i ∈ [Instr.setaddr 1, .hexdec [0x20], .emit], i.wf = true) ∧
    ({ regs 0 0 0 0 0 0 with port := presented [.setaddr 1, .hexdec [0x20], .emit] ++ [.reset] } : State).port =
      presented [.setaddr 1, .hexdec [0x20], .emit] ++ [.reset] := ⟨by decide, rfl⟩
theorem witness_ResetEventLoadsFrameReset :
    ({ regs 1 2 3 4 5 6 with port := [.reset] } : State).port = .reset :: [] := rfl
theorem witness_StepKeepsResponseInv : ResponseInv (presenting [0x16]) ∧ ∃ t, step (presenting [0x16]) = .next t :=
  ⟨fun _ h => (by cases h), _, rfl⟩
/-- A port with an event first, and an empty port. -/
theorem witness_StepTakesFirstEventAndKeepsFrameReset : (∃ t, step (presenting [0x20]) = .next t) ∧
    (State.reset.port = [] ∧ ∃ t, step State.reset = .next t) := ⟨⟨_, rfl⟩, rfl, _, rfl⟩

end Sys2Proof.Tests
end

section
/-! PROOFS. The byte order of the frame image (20_memory.md R41, R42). -/

namespace Sys2Proof.Machine

/-- The eight positions of the frame image, the header written out (R110, R111). -/
theorem encode8_eq_bytes (a f : Byte) (r l : Half) :
    encode8 a f r l = [a, f, hi8 r, lo8 r, hi8 l, lo8 l,
      lo8 (crc16 (header6 a f r l)), hi8 (crc16 (header6 a f r l))] := rfl

/-- Settles O20: the checksum is that of the written-out header, and `hi8`, `lo8` are quotient and remainder by 256. -/
theorem headerBigEndianTrailerLittleEndian : Obligations.HeaderBigEndianTrailerLittleEndian := by
  unfold Obligations.HeaderBigEndianTrailerLittleEndian
  constructor
  · intro a f r l
    exact ⟨crc16 (header6 a f r l), rfl, encode8_eq_bytes a f r l⟩
  · intro v
    exact ⟨hi8_toNat v, lo8_toNat v⟩

end Sys2Proof.Machine
end

section
/-! PROOFS. The order of the decoder's tests (30_encoding.md R67): which bytes are opcodes, which operand bytes an opcode
accepts, and which command they spell. -/

namespace Sys2Proof

open Sys2Proof.Machine Sys2Proof.Claims

/-- The table of R66 lists exactly the bytes of the fourteen opcodes. -/
theorem mem_definedOpcodes {op : Byte} : op ∈ definedOpcodes ↔ ∃ o : Op, o.byte = op := by
  have hmap : definedOpcodes = Op.all.map Op.byte := rfl
  have hall : ∀ o : Op, o ∈ Op.all := fun o => by cases o <;> decide
  simp [hmap, hall]

theorem opOf_eq_none {op : Byte} (h : op ∉ definedOpcodes) : opOf op = none := by
  rw [Option.eq_none_iff_forall_ne_some]
  intro o ho
  exact h (mem_definedOpcodes.2 ⟨o, byte_of_opOf ho⟩)

theorem byteOperand_isSome (bs : List Byte) : (byteOperand bs).isSome ↔ bs.length = 1 := by
  simp [Option.isSome_iff_exists, byteOperand_eq_some, List.length_eq_one_iff]

theorem halfOperand_isSome (bs : List Byte) : (halfOperand bs).isSome ↔ bs.length = 2 := by
  rw [Option.isSome_iff_exists, List.length_eq_two]
  constructor
  · rintro ⟨v, hv⟩
    exact ⟨hi8 v, lo8 v, halfOperand_eq_some.1 hv⟩
  · rintro ⟨a, b, rfl⟩
    exact ⟨cat16 a b, rfl⟩

theorem frameOperand_isSome (bs : List Byte) : (frameOperand bs).isSome ↔ bs.length = 6 := by
  obtain ⟨hl, hn⟩ | ⟨a, f, rHi, rLo, lHi, lLo, rfl⟩ := frameOperand_cases bs
  · simp [hl, hn]
  · simp [frameOperand]

/-- A sequence operand is read exactly where the length test of R67 for format S passes: the length field is whole and
counts the bytes after it (R65). -/
theorem seqOperand_isSome (op : Byte) (bs : List Byte) : (seqOperand bs).isSome ↔
    ∃ nHi nLo d, op :: bs = op :: nHi :: nLo :: d ∧ (op :: bs).length = 3 + (nHi.toNat * 256 + nLo.toNat) := by
  match bs with
  | [] => simp [seqOperand]
  | [_] => simp [seqOperand]
  | nHi :: nLo :: d =>
    have hlen : d.length = nHi.toNat * 256 + nLo.toNat ↔
        d.length + 1 + 1 + 1 = 3 + (nHi.toNat * 256 + nLo.toNat) := by omega
    simp [seqOperand, cat16_toNat, hlen]

/-- The operands of format F are read back as the bytes they came from (R64). -/
theorem frameOperand_eq_some {bs : List Byte} {a f : Byte} {r l : Half} (h : frameOperand bs = some (a, f, r, l)) :
    bs = [a, f, hi8 r, lo8 r, hi8 l, lo8 l] := by
  obtain ⟨-, hn⟩ | ⟨a', f', rHi, rLo, lHi, lLo, rfl⟩ := frameOperand_cases bs
  · simp [hn] at h
  · simp only [frameOperand, Option.some.injEq, Prod.mk.injEq] at h
    obtain ⟨rfl, rfl, rfl, rfl⟩ := h
    simp

/-- Operand assembly succeeds exactly where the length test of R67 passes. -/
theorem operandsOf_isSome (o : Op) (bs : List Byte) :
    (operandsOf o bs).isSome ↔ LengthOk o.byte (o.byte :: bs) := by
  cases o
  case setaddr | setfunc | setregh | setregl | setlenh | setlenl =>
    simp [operandsOf, LengthOk, Op.byte, byteOperand_isSome]
  case setreg | setlen => simp [operandsOf, LengthOk, Op.byte, halfOperand_isSome]
  case emit => cases bs <;> simp [operandsOf, LengthOk, Op.byte]
  case encode => simp [operandsOf, LengthOk, Op.byte, frameOperand_isSome]
  case crc16 | hexenc | hexdec | decode6 =>
    simpa [operandsOf, LengthOk, Op.byte] using seqOperand_isSome 0x00 bs

/-- The command assembled from operand bytes has the opcode asked for, its operands are those bytes, and the encoding can
spell it (R74). -/
theorem operandsOf_eq_some {o : Op} {bs : List Byte} {i : Instr} (h : operandsOf o bs = some i) :
    i.op = o ∧ operandBytes i = bs ∧ i.wf = true := by
  cases o
  case setaddr | setfunc | setregh | setregl | setlenh | setlenl =>
    obtain ⟨v, hv, rfl⟩ := Option.map_eq_some_iff.1 h
    exact ⟨rfl, (byteOperand_eq_some.1 hv).symm, rfl⟩
  case setreg | setlen =>
    obtain ⟨v, hv, rfl⟩ := Option.map_eq_some_iff.1 h
    exact ⟨rfl, (halfOperand_eq_some.1 hv).symm, rfl⟩
  case emit =>
    obtain ⟨rfl, rfl⟩ : bs = [] ∧ Instr.emit = i := by simpa [operandsOf] using h
    exact ⟨rfl, rfl, rfl⟩
  case encode =>
    obtain ⟨⟨a, f, r, l⟩, hp, rfl⟩ := Option.map_eq_some_iff.1 h
    exact ⟨rfl, (frameOperand_eq_some hp).symm, rfl⟩
  case crc16 | hexenc | hexdec | decode6 =>
    obtain ⟨d, hd, rfl⟩ := Option.map_eq_some_iff.1 h
    obtain ⟨hbs, hlen⟩ := seqOperand_eq_some hd
    exact ⟨rfl, hbs.symm, decide_eq_true hlen⟩

/-- A 16-bit value from its two bytes (42_crc16.md R139). -/
theorem toNat_eq_hi8_lo8 (v : Half) : v.toNat = (hi8 v).toNat * 256 + (lo8 v).toNat := by
  rw [← cat16_toNat, cat16_hi8_lo8]

theorem info_reserved_toNat (op : Byte) : (DecodeError.reserved op).info.toNat = 0x0100 + op.toNat := by
  obtain ⟨hhi, hlo⟩ := info_bytes_reserved op
  rw [toNat_eq_hi8_lo8, hhi, hlo]
  rfl

theorem info_wrongLength_toNat (op : Byte) : (DecodeError.wrongLength op).info.toNat = 0x0200 + op.toNat := by
  obtain ⟨hhi, hlo⟩ := info_bytes_wrongLength op
  rw [toNat_eq_hi8_lo8, hhi, hlo]
  rfl

/-- A defined opcode whose length test fails is of wrong length (R67). -/
theorem decode_of_not_lengthOk {op : Byte} {bs : List Byte} (hop : op ∈ definedOpcodes)
    (hlen : ¬ LengthOk op (op :: bs)) : decode (op :: bs) = .error (.wrongLength op) := by
  obtain ⟨o, rfl⟩ := mem_definedOpcodes.1 hop
  have hnone : operandsOf o bs = none := Option.not_isSome_iff_eq_none.1 (mt (operandsOf_isSome o bs).1 hlen)
  rw [decode_defined (opOf_byte o), hnone]

/-- A byte string that passes every test of R67 spells one command, the one whose encoding it is. -/
theorem decode_of_lengthOk {op : Byte} {bs : List Byte} (hop : op ∈ definedOpcodes) (hlen : LengthOk op (op :: bs)) :
    ∃ i, decode (op :: bs) = .ok i ∧ i.op.byte = op ∧ encode i = op :: bs := by
  obtain ⟨o, rfl⟩ := mem_definedOpcodes.1 hop
  obtain ⟨i, hi⟩ := Option.isSome_iff_exists.1 ((operandsOf_isSome o bs).2 hlen)
  obtain ⟨hio, hbs, -⟩ := operandsOf_eq_some hi
  refine ⟨i, ?_, by rw [hio], by rw [encode, hio, hbs]⟩
  rw [decode_defined (opOf_byte o), hi]

/-- Settles O38: one lemma for each outcome of the decoder's tests. -/
theorem decodeFollowsTheOrderOfTests : Obligations.DecodeFollowsTheOrderOfTests := by
  unfold Obligations.DecodeFollowsTheOrderOfTests
  refine ⟨decode_nil, fun op bs => ⟨?_, ?_, ?_, rfl, info_reserved_toNat op, info_wrongLength_toNat op⟩⟩
  · exact fun hop => decode_reserved (opOf_eq_none hop) bs
  · exact decode_of_not_lengthOk
  · exact decode_of_lengthOk

end Sys2Proof
end

section
/-! PROOFS. The pseudo-instructions (30_encoding.md R73): what the setters of an expansion leave, and that each of them
answers `00`. -/

namespace Sys2Proof.Machine

open Sys2Proof.Claims

/-! The whole next state of each setter (40_frame_setters.md R91 to R99). -/

section SetterEquations

variable (v : Byte) (w : Half) (s : State)

theorem exec_setaddr : exec (.setaddr v) s =
    .next { s with frame := { s.frame with addr := v, func := 0x03 }, response := some [0x00] } := rfl

theorem exec_setfunc : exec (.setfunc v) s =
    .next { s with frame := { s.frame with func := v }, response := some [0x00] } := rfl

theorem exec_setregh : exec (.setregh v) s =
    .next { s with frame := { s.frame with regH := v, func := 0x03 }, response := some [0x00] } := rfl

theorem exec_setregl : exec (.setregl v) s =
    .next { s with frame := { s.frame with regL := v, func := 0x03 }, response := some [0x00] } := rfl

theorem exec_setlenh : exec (.setlenh v) s =
    .next { s with frame := { s.frame with lenH := v, func := 0x03 }, response := some [0x00] } := rfl

theorem exec_setlenl : exec (.setlenl v) s =
    .next { s with frame := { s.frame with lenL := v, func := 0x03 }, response := some [0x00] } := rfl

theorem exec_setreg : exec (.setreg w) s =
    .next { s with frame := { s.frame with regH := hi8 w, regL := lo8 w, func := 0x03 }, response := some [0x00] } := rfl

theorem exec_setlen : exec (.setlen w) s =
    .next { s with frame := { s.frame with lenH := hi8 w, lenL := lo8 w, func := 0x03 }, response := some [0x00] } := rfl

end SetterEquations

@[simp] theorem execSeq_nil (s : State) : execSeq [] s = .next s := rfl

/-- A sequence goes on from the state its first command leaves (20_memory.md R48). -/
theorem execSeq_cons_of_next {i : Instr} {s t : State} (h : exec i s = .next t) (is : List Instr) :
    execSeq (i :: is) s = execSeq is t := by simp [execSeq, h]

/-- A setter always completes, with the response `00`. -/
theorem exec_setter_responds {i : Instr} (hi : isSetter i = true) (s : State) :
    ∃ t, exec i s = .next t ∧ t.response = some [0x00] := by
  cases i
  case setaddr | setfunc | setregh | setregl | setlenh | setlenl | setreg | setlen => exact ⟨_, rfl, rfl⟩
  case emit | encode | crc16 | hexenc | hexdec | decode6 => simp [isSetter] at hi

/-- A non-empty sequence of setters completes, and its last command answers `00`. -/
theorem execSeq_setters_responds {is : List Instr} (hne : is ≠ []) (his : ∀ i ∈ is, isSetter i = true) (s : State) :
    ∃ t, execSeq is s = .next t ∧ t.response = some [0x00] := by
  induction is generalizing s with
  | nil => exact absurd rfl hne
  | cons i is ih =>
    obtain ⟨t, ht, hresp⟩ := exec_setter_responds (his i (by simp)) s
    rw [execSeq_cons_of_next ht]
    cases is with
    | nil => exact ⟨t, rfl, hresp⟩
    | cons j js => exact ih (by simp) (fun k hk => his k (List.mem_cons_of_mem i hk)) t

/-- Every pseudo-instruction expands to setters alone (R73). -/
theorem isSetter_of_mem_expand (p : Pseudo) : ∀ i ∈ p.expand, isSetter i = true := by
  cases p <;> simp [Pseudo.expand, isSetter]

theorem execSeq_loadframe (a f : Byte) (r l : Half) (s : State) : execSeq (Pseudo.loadframe a f r l).expand s =
    .next { s with frame := ⟨a, f, hi8 r, lo8 r, hi8 l, lo8 l⟩, response := some [0x00] } := by
  simp [Pseudo.expand, execSeq_cons_of_next (exec_setaddr ..), execSeq_cons_of_next (exec_setreg ..),
    execSeq_cons_of_next (exec_setlen ..), execSeq_cons_of_next (exec_setfunc ..)]

theorem execSeq_loadread (a : Byte) (r l : Half) (s : State) : execSeq (Pseudo.loadread a r l).expand s =
    .next { s with frame := ⟨a, 0x03, hi8 r, lo8 r, hi8 l, lo8 l⟩, response := some [0x00] } := by
  simp [Pseudo.expand, execSeq_cons_of_next (exec_setaddr ..), execSeq_cons_of_next (exec_setreg ..),
    execSeq_cons_of_next (exec_setlen ..)]

theorem execSeq_setregb (hi lo : Byte) (s : State) :
    execSeq (Pseudo.setregb hi lo).expand s = exec (.setreg (cat16 hi lo)) s := by
  simp [Pseudo.expand, execSeq_cons_of_next (exec_setregh ..), execSeq_cons_of_next (exec_setregl ..), exec_setreg]

theorem execSeq_setlenb (hi lo : Byte) (s : State) :
    execSeq (Pseudo.setlenb hi lo).expand s = exec (.setlen (cat16 hi lo)) s := by
  simp [Pseudo.expand, execSeq_cons_of_next (exec_setlenh ..), execSeq_cons_of_next (exec_setlenl ..), exec_setlen]

/-- Settles O14: each expansion is run setter by setter, and its first `k` commands are again setters. -/
theorem pseudoInstructionsExpandAndLoad : Obligations.PseudoInstructionsExpandAndLoad := by
  unfold Obligations.PseudoInstructionsExpandAndLoad
  constructor
  · intro a f hi lo r l s
    exact ⟨rfl, rfl, rfl, rfl, execSeq_loadframe a f r l s, execSeq_loadread a r l s,
      execSeq_setregb hi lo s, execSeq_setlenb hi lo s⟩
  · intro p k s hk hlen
    have hne : p.expand.take k ≠ [] := List.ne_nil_of_length_pos (by rw [List.length_take]; omega)
    exact execSeq_setters_responds hne (fun i hi => isSetter_of_mem_expand p i (List.mem_of_mem_take hi)) s

end Sys2Proof.Machine
end

section
/-! PROOFS. The Frame setters (40_frame_setters.md R91 to R99): how each is spelt, what it leaves, and which commands move
FUNC. -/

namespace Sys2Proof.Machine

open Sys2Proof.Claims

/-- An opcode byte followed by operand bytes its format accepts spells the command assembled from them (R67, R74). -/
theorem decode_of_operandsOf {o : Op} {bs : List Byte} {i : Instr} (h : operandsOf o bs = some i) :
    decode (o.byte :: bs) = .ok i := by
  rw [decode_defined (opOf_byte o), h]

/-! ### The coupling rule -/

/-- The last register write of every addressing or length setter is the forced FUNC (R99). -/
theorem exec_fieldSetter_eq {i : Instr} (hi : isFieldSetter i = true) (s : State) :
    ∃ u : State, exec i s = respondOk [] u.forceFunction := by
  cases i
  case setaddr | setregh | setregl | setlenh | setlenl | setreg | setlen => exact ⟨_, rfl⟩
  case setfunc | emit | encode | crc16 | hexenc | hexdec | decode6 => simp [isFieldSetter] at hi

theorem exec_fieldSetter_func {i : Instr} (hi : isFieldSetter i = true) (s : State) :
    ∃ t, exec i s = .next t ∧ t.frame.func = 0x03 := by
  obtain ⟨u, hu⟩ := exec_fieldSetter_eq hi s
  exact ⟨_, hu, forceFunction_func u⟩

/-- Settles O9: the forced FUNC is written after the operand, so it stands at the end. -/
theorem fieldSettersForceFunctionThree : Obligations.FieldSettersForceFunctionThree := by
  unfold Obligations.FieldSettersForceFunctionThree
  exact fun i s hi => exec_fieldSetter_func hi s

/-! ### The commands that are not setters, and SETFUNC -/

/-- A command that is no setter answers a response and leaves the rest of the state as it is (10_state.md R26). -/
theorem exec_eq_respond_of_not_isSetter {i : Instr} (hi : isSetter i = false) (s : State) :
    ∃ rsp, exec i s = .next (s.respond rsp) := by
  cases i
  case setaddr | setfunc | setregh | setregl | setlenh | setlenl | setreg | setlen => simp [isSetter] at hi
  case emit | encode | crc16 | hexenc => exact ⟨_, rfl⟩
  case hexdec x => obtain ⟨_, -, h⟩ | ⟨_, -, h⟩ := execHexdec_cases x s <;> exact ⟨_, h⟩
  case decode6 x => obtain ⟨_, -, h⟩ | ⟨_, -, -, h⟩ | ⟨_, -, -, h⟩ := execDecode6_cases x s <;> exact ⟨_, h⟩

theorem exec_frame_of_not_isSetter {i : Instr} (hi : isSetter i = false) {s t : State} (h : exec i s = .next t) :
    t.frame = s.frame := by
  obtain ⟨rsp, hrsp⟩ := exec_eq_respond_of_not_isSetter hi s
  obtain rfl : s.respond rsp = t := by simpa [hrsp] using h
  exact respond_frame s rsp

/-- The setters are SETFUNC and the addressing and length setters. -/
theorem instr_setter_cases (i : Instr) :
    (∃ v, i = .setfunc v) ∨ isFieldSetter i = true ∨ isSetter i = false := by
  cases i <;> simp [isFieldSetter, isSetter]

/-- What a command can do to FUNC: keep it, force it to 0x03, or, for SETFUNC alone, write its operand (R92, R99). -/
theorem exec_func_cases {i : Instr} {s t : State} (h : exec i s = .next t) :
    t.frame.func = s.frame.func ∨ t.frame.func = 0x03 ∨ i = .setfunc t.frame.func := by
  obtain ⟨v, rfl⟩ | hfield | hnot := instr_setter_cases i
  · rw [exec_setfunc, Host.Outcome.next.injEq] at h
    subst h
    exact .inr (.inr rfl)
  · obtain ⟨u, hu, hfunc⟩ := exec_fieldSetter_func hfield s
    obtain rfl : u = t := by simpa [hu] using h
    exact .inr (.inl hfunc)
  · exact .inl (by rw [exec_frame_of_not_isSetter hnot h])

/-- A step that moves any register takes a reset or a setter from the port. -/
theorem step_frame_ne_cases {s t : State} (h : step s = .next t) (hne : t.frame ≠ s.frame) :
    (∃ rest, s.port = .reset :: rest) ∨ ∃ i rest, Presents s i rest ∧ isSetter i = true := by
  obtain ⟨-, hs⟩ | ⟨rest, hp, -⟩ | ⟨cmd, rest, e, -, -, hs⟩ | ⟨cmd, rest, i, hp, hd, hs⟩ := step_cases s
  · obtain rfl : s = t := by simpa [hs] using h
    exact absurd rfl hne
  · exact .inl ⟨rest, hp⟩
  · rw [hs] at h
    exact absurd (by rw [raiseError_next h]) hne
  · rw [hs] at h
    refine .inr ⟨i, rest, ⟨cmd, hp, hd⟩, ?_⟩
    by_contra hnot
    have hframe := exec_frame_of_not_isSetter (Bool.eq_false_iff.2 hnot) h
    exact hne hframe

/-- Settles O2: the third clause holds of every register, since only a setter or a reset writes one. -/
theorem setfuncAloneWritesFuncFreely : Obligations.SetfuncAloneWritesFuncFreely := by
  unfold Obligations.SetfuncAloneWritesFuncFreely
  refine ⟨fun v s => ⟨decode_of_operandsOf (o := .setfunc) rfl, exec_setfunc v s⟩, ?_, ?_⟩
  · intro i s t h hchanged hfree
    obtain hkept | hforced | hset := exec_func_cases h
    · exact absurd hkept hchanged
    · exact absurd hforced hfree
    · exact hset
  · intro s t h hchanged
    exact step_frame_ne_cases h (fun hframe => hchanged (by rw [hframe]))

/-! ### The setters of one register -/

/-- Settles O1: the decoder's byte operand and the setter's whole next state. -/
theorem setaddrWritesAddrAndForcesFunc : Obligations.SetaddrWritesAddrAndForcesFunc := by
  unfold Obligations.SetaddrWritesAddrAndForcesFunc
  exact fun v s => ⟨decode_of_operandsOf (o := .setaddr) rfl, exec_setaddr v s⟩

/-- Settles O3: as O1, for REGH. -/
theorem setreghWritesReghAndForcesFunc : Obligations.SetreghWritesReghAndForcesFunc := by
  unfold Obligations.SetreghWritesReghAndForcesFunc
  exact fun v s => ⟨decode_of_operandsOf (o := .setregh) rfl, exec_setregh v s⟩

/-- Settles O4: as O1, for REGL. -/
theorem setreglWritesReglAndForcesFunc : Obligations.SetreglWritesReglAndForcesFunc := by
  unfold Obligations.SetreglWritesReglAndForcesFunc
  exact fun v s => ⟨decode_of_operandsOf (o := .setregl) rfl, exec_setregl v s⟩

/-- Settles O5: as O1, for LENH. -/
theorem setlenhWritesLenhAndForcesFunc : Obligations.SetlenhWritesLenhAndForcesFunc := by
  unfold Obligations.SetlenhWritesLenhAndForcesFunc
  exact fun v s => ⟨decode_of_operandsOf (o := .setlenh) rfl, exec_setlenh v s⟩

/-- Settles O6: as O1, for LENL. -/
theorem setlenlWritesLenlAndForcesFunc : Obligations.SetlenlWritesLenlAndForcesFunc := by
  unfold Obligations.SetlenlWritesLenlAndForcesFunc
  exact fun v s => ⟨decode_of_operandsOf (o := .setlenl) rfl, exec_setlenl v s⟩

/-! ### The setters of a whole field -/

/-- The two byte setters of the register field leave what SETREG leaves (R97). -/
theorem execSeq_setregh_setregl (v : Half) (s : State) :
    execSeq [.setregh (hi8 v), .setregl (lo8 v)] s = exec (.setreg v) s := by
  simpa [Pseudo.expand] using execSeq_setregb (hi8 v) (lo8 v) s

/-- The two byte setters of the length field leave what SETLEN leaves (R98). -/
theorem execSeq_setlenh_setlenl (v : Half) (s : State) :
    execSeq [.setlenh (hi8 v), .setlenl (lo8 v)] s = exec (.setlen v) s := by
  simpa [Pseudo.expand] using execSeq_setlenb (hi8 v) (lo8 v) s

/-- Settles O7: SETREG is the expansion of SETREGB on the halves of its operand. -/
theorem setregWritesBothHalvesAtOnce : Obligations.SetregWritesBothHalvesAtOnce := by
  unfold Obligations.SetregWritesBothHalvesAtOnce
  exact fun hh ll v s => ⟨decode_of_operandsOf (o := .setreg) rfl, cat16_toNat hh ll, exec_setreg v s,
    execSeq_setregh_setregl v s⟩

/-- Settles O8: SETLEN is the expansion of SETLENB on the halves of its operand. -/
theorem setlenWritesBothHalvesAtOnce : Obligations.SetlenWritesBothHalvesAtOnce := by
  unfold Obligations.SetlenWritesBothHalvesAtOnce
  exact fun hh ll v s => ⟨decode_of_operandsOf (o := .setlen) rfl, cat16_toNat hh ll, exec_setlen v s,
    execSeq_setlenh_setlenl v s⟩

end Sys2Proof.Machine
end

section
/-! PROOFS. The frame producers (41_frame_encode.md R110 to R115): the header and the operands of format F are two readings
of the same six bytes, and EMIT and ENCODE answer a frame and write nothing. -/

namespace Sys2Proof.Machine

/-! ### The header -/

/-- Writing a header and reading the operands of format F undo one another (R64, R110). -/
theorem header6_eq_iff {a f : Byte} {r l : Half} {bs : List Byte} :
    header6 a f r l = bs ↔ frameOperand bs = some (a, f, r, l) := by
  constructor
  · rintro rfl
    simp [header6, frameOperand]
  · intro h
    exact (frameOperand_eq_some h).symm

/-- Settles O21: six bytes are read as one tuple of fields, and that tuple alone writes them. -/
theorem headerIsABijection : Obligations.HeaderIsABijection := by
  unfold Obligations.HeaderIsABijection
  refine ⟨fun a f r l => rfl, fun bs hlen => ?_⟩
  obtain ⟨p, hp⟩ := Option.isSome_iff_exists.1 ((frameOperand_isSome bs).2 hlen)
  refine ⟨p, header6_eq_iff.2 hp, fun q hq => ?_⟩
  exact Option.some.inj ((header6_eq_iff.1 hq).symm.trans hp)

/-- A header whose fields are given by their halves is those bytes in order (R41, R110). -/
theorem header6_cat16 (a f rH rL lH lL : Byte) :
    header6 a f (cat16 rH rL) (cat16 lH lL) = [a, f, rH, rL, lH, lL] := by simp [header6]

/-! ### The frame -/

/-- A frame is 8 bytes (R111). -/
theorem encode8_length (a f : Byte) (r l : Half) : (encode8 a f r l).length = 8 := rfl

/-- A frame opens with its header (R111). -/
theorem encode8_take_six (a f : Byte) (r l : Half) : (encode8 a f r l).take 6 = header6 a f r l := rfl

/-- The FRAME output is the frame of the registers, its two fields made of their halves (R23, R24, R112). -/
theorem frameOut_eq_encode8 (s : State) : s.frameOut =
    encode8 s.frame.addr s.frame.func (cat16 s.frame.regH s.frame.regL) (cat16 s.frame.lenH s.frame.lenL) := rfl

theorem exec_emit (s : State) : exec .emit s = .next { s with response := some (0x00 :: s.frameOut) } := rfl

theorem exec_encode (a f : Byte) (r l : Half) (s : State) :
    exec (.encode a f r l) s = .next { s with response := some (0x00 :: encode8 a f r l) } := rfl

/-- Settles O17: the response of EMIT is the FRAME output, which is the frame of the registers. -/
theorem emitAnswersTheFrame : Obligations.EmitAnswersTheFrame := by
  unfold Obligations.EmitAnswersTheFrame
  intro s
  refine ⟨decode_of_operandsOf (o := .emit) rfl, ?_, exec_emit s, ?_⟩
  · rw [exec_emit, frameOut_eq_encode8]
  · rw [frameOut_eq_encode8, List.length_cons, encode8_length]

/-- Settles O18: the first six bytes are the header of the operands, whose halves are the bytes of the command. -/
theorem encodeAnswersTheFrameOfItsOperands : Obligations.EncodeAnswersTheFrameOfItsOperands := by
  unfold Obligations.EncodeAnswersTheFrameOfItsOperands
  intro a f rH rL lH lL s
  refine ⟨decode_of_operandsOf (o := .encode) rfl, exec_encode .., ?_, encode8_length ..⟩
  rw [encode8_take_six, header6_cat16]

/-- Settles O19: the header of the FRAME output is the six registers, and no other field is read. -/
theorem frameOutputIsAFunctionOfTheRegisters : Obligations.FrameOutputIsAFunctionOfTheRegisters := by
  unfold Obligations.FrameOutputIsAFunctionOfTheRegisters
  constructor
  · intro s
    simp only [frameOut_eq_encode8, encode8, header6_cat16]
  · intro s t hframe
    simp only [frameOut_eq_encode8, hframe]

/-! ### The known vector -/

/-- The accumulator after each byte of the known vector, as the spec traces it (95_test_vectors.md V1.1). -/
theorem bytestepBit_known_vector :
    bytestepBit 0xFFFF 0x01 = 0x807E ∧ bytestepBit 0x807E 0x03 = 0x2140 ∧ bytestepBit 0x2140 0x00 = 0xF020 ∧
      bytestepBit 0xF020 0x00 = 0xD8F1 ∧ bytestepBit 0xD8F1 0x00 = 0x8419 ∧ bytestepBit 0x8419 0x0A = 0xCDC5 := by
  decide

/-- The checksum of the known vector (R115). -/
theorem crc16_known_vector : crc16 [0x01, 0x03, 0x00, 0x00, 0x00, 0x0A] = 0xCDC5 := by
  obtain ⟨h0, h1, h2, h3, h4, h5⟩ := bytestepBit_known_vector
  rw [crc16, Config.crcInit, crc16From_cons, h0, crc16From_cons, h1, crc16From_cons, h2, crc16From_cons, h3,
    crc16From_cons, h4, crc16From_cons, h5, crc16From_nil]

/-- Settles O22: the frame follows from its checksum, low byte first. -/
theorem knownVectorHolds : Obligations.KnownVectorHolds := by
  unfold Obligations.KnownVectorHolds
  refine ⟨crc16_known_vector, ?_⟩
  have hheader : header6 0x01 0x03 0x0000 0x000A = [0x01, 0x03, 0x00, 0x00, 0x00, 0x0A] := by decide
  simp only [encode8, hheader, crc16_known_vector]
  decide

end Sys2Proof.Machine
end

section
/-! PROOFS. The checksum (42_crc16.md R129 to R133): the table folds the low byte of the accumulator, the shift moves its
high byte down, and a bit step is linear, so the two together are eight bit steps; CRC16 answers the checksum. -/

namespace Sys2Proof.Machine

/-! ### The table-driven form -/

/-- Each entry of the listing of R130 is eight bit steps applied to its index (R129). -/
theorem crcTabAt_eq_bitsteps (i : Byte) : crcTabAt i = bitsteps 8 (zext16 i) := by
  revert i; decide

/-- The high half of a value is what the shift of R131 brings down. -/
theorem zext16_hi8 (v : Half) : zext16 (hi8 v) = v >>> 8 := by
  have hv := v.isLt
  apply BitVec.eq_of_toNat_eq
  rw [zext16, BitVec.toNat_setWidth, hi8_toNat, BitVec.toNat_ushiftRight, Nat.shiftRight_eq_div_pow]
  omega

/-- A byte enters the low half of the accumulator alone, so the shift does not see it (R131). -/
theorem ushiftRight_eight_xor_zext16 (c : Half) (b : Byte) : (c ^^^ zext16 b) >>> 8 = c >>> 8 := by
  have hb : zext16 b >>> 8 = 0#16 := by
    have hlt := b.isLt
    apply BitVec.eq_of_toNat_eq
    rw [zext16, BitVec.toNat_ushiftRight, BitVec.toNat_setWidth, Nat.shiftRight_eq_div_pow, BitVec.toNat_ofNat]
    omega
  rw [BitVec.ushiftRight_xor_distrib, hb, BitVec.xor_zero]

/-- The table-driven byte step is the bitwise one (R132). -/
theorem bytestepTab_eq_bytestepBit (c : Half) (b : Byte) : bytestepTab c b = bytestepBit c b := by
  generalize hx : c ^^^ zext16 b = x
  have hshift : c >>> 8 = zext16 (hi8 x) := by rw [zext16_hi8, ← hx, ushiftRight_eight_xor_zext16]
  calc bytestepTab c b = zext16 (hi8 x) ^^^ crcTabAt (lo8 x) := by rw [bytestepTab, hx, hshift]
    _ = bitsteps 8 (cat16 (hi8 x) 0) ^^^ bitsteps 8 (zext16 (lo8 x)) := by rw [bitsteps_high, crcTabAt_eq_bitsteps]
    _ = bitsteps 8 x := by rw [← bitsteps_xor, ← high_xor_low]
    _ = bytestepBit c b := by rw [bytestepBit, hx]

/-- Settles O25: the two loops fold the same byte step. -/
theorem tableDrivenCrcEqualsBitwise : Obligations.TableDrivenCrcEqualsBitwise := by
  unfold Obligations.TableDrivenCrcEqualsBitwise
  refine ⟨bytestepTab_eq_bytestepBit, fun bs => ?_⟩
  have hstep : bytestepTab = bytestepBit := funext₂ bytestepTab_eq_bytestepBit
  rw [crc16Tab, hstep, crc16, crc16From]

/-! ### The command CRC16 -/

theorem exec_crc16 (d : List Byte) (s : State) : exec (.crc16 d) s =
    .next { s with response := some [0x00, lo8 (crc16 d), hi8 (crc16 d)] } := rfl

/-- A length field that counts the bytes after it is read as the sequence of those bytes (R65). -/
theorem seqOperand_of_length {nHi nLo : Byte} {d : List Byte} (h : d.length = nHi.toNat * 256 + nLo.toNat) :
    seqOperand (nHi :: nLo :: d) = some d := by
  rw [seqOperand, cat16_toNat, if_pos h]

theorem decode_crc16 {nHi nLo : Byte} {d : List Byte} (h : d.length = nHi.toNat * 256 + nLo.toNat) :
    decode (0x30 :: nHi :: nLo :: d) = .ok (.crc16 d) :=
  decode_of_operandsOf (o := .crc16) (by rw [operandsOf, seqOperand_of_length h, Option.map_some])

/-- A frame closes with the checksum of its header, low byte first (R42, R111). -/
theorem encode8_drop_six (a f : Byte) (r l : Half) : (encode8 a f r l).drop 6 =
    [lo8 (crc16 (header6 a f r l)), hi8 (crc16 (header6 a f r l))] := by simp [encode8_eq_bytes]

/-- The checksum of the empty sequence is INIT (R134). -/
theorem crc16_nil : crc16 [] = 0xFFFF := rfl

/-- Settles O29: the meaning of CRC16 at the empty sequence, at a header and at any sequence. -/
theorem crc16AnswersTheChecksumLowByteFirst : Obligations.Crc16AnswersTheChecksumLowByteFirst := by
  unfold Obligations.Crc16AnswersTheChecksumLowByteFirst
  refine ⟨fun s => ?_, fun a f r l s => ?_, fun nHi nLo d s => ⟨decode_crc16, exec_crc16 d s⟩⟩
  · have hlo : lo8 0xFFFF = 0xFF := by decide
    have hhi : hi8 0xFFFF = 0xFF := by decide
    rw [exec_crc16, crc16_nil, hlo, hhi]
  · rw [exec_crc16, encode8_drop_six]

end Sys2Proof.Machine
end

section
/-! PROOFS. The text functions (43_hex_text.md R150 to R157). A text of hex digits is the list of its nibbles; a padded list
of nibbles is the list of its bytes, and both changes of digits keep the number written. -/

namespace Sys2Proof.Machine

open Sys2Proof.Claims

/-! ### Digits -/

/-- `hexval` is the table of the 22 hex digits (R150). -/
theorem hexval_eq_lookup (b : Byte) : (hexval b).map BitVec.toNat = hexDigits.lookup b := by
  revert b; decide

/-- `hexchar` writes the upper-case digit (R150). -/
theorem hexchar_eq_upperDigit (n : Nibble) : hexchar n = upperDigit n.toNat := by revert n; decide

/-- The nibble a hex digit stands for; 0 for a non-hex character. -/
def nibbleOf (b : Byte) : Nibble := (hexval b).getD 0

theorem nibbleOf_toNat (b : Byte) : (nibbleOf b).toNat = digitValue b := by
  rw [nibbleOf, digitValue, ← hexval_eq_lookup]
  cases hexval b <;> rfl

@[simp] theorem nibbleOf_hexchar (n : Nibble) : nibbleOf (hexchar n) = n := by simp [nibbleOf]

theorem isSome_hexval (b : Byte) : (hexval b).isSome = isHexDigit b := by
  rw [isHexDigit, ← hexval_eq_lookup, Option.isSome_map]

theorem isNone_hexval (b : Byte) : (hexval b).isNone = !isHexDigit b := by
  rw [← isSome_hexval, Option.not_isSome]

theorem hexval_of_isHexDigit {b : Byte} (h : isHexDigit b = true) : hexval b = some (nibbleOf b) := by
  obtain ⟨n, hn⟩ := Option.isSome_iff_exists.1 ((isSome_hexval b).trans h)
  rw [nibbleOf, hn, Option.getD_some]

@[simp] theorem isHexDigit_hexchar (n : Nibble) : isHexDigit (hexchar n) = true := by simp [← isSome_hexval]

/-- A byte of text is the digits of the quotient and the remainder by 16 (R151). -/
theorem hexPair_eq_upperDigit (b : Byte) : hexPair b = [upperDigit (b.toNat / 16), upperDigit (b.toNat % 16)] := by
  have hlt := b.isLt
  have hhi : (b.extractLsb' 4 4).toNat = b.toNat / 16 := by
    rw [BitVec.extractLsb'_toNat, Nat.shiftRight_eq_div_pow]; omega
  have hlo : (b.extractLsb' 0 4).toNat = b.toNat % 16 := by
    rw [BitVec.extractLsb'_toNat, Nat.shiftRight_zero]
  rw [hexPair, hexchar_eq_upperDigit, hexchar_eq_upperDigit, hhi, hlo]

/-! ### Nibbles and the bytes they make -/

theorem padNibbles_of_even {v : List Nibble} (h : v.length % 2 = 0) : padNibbles v = v := by
  rw [padNibbles, if_neg (by omega)]

theorem padNibbles_of_odd {v : List Nibble} (h : v.length % 2 = 1) : padNibbles v = 0 :: v := by
  rw [padNibbles, if_pos h]

/-- The number that hexadecimal digits write after the number `n`, first digit first. -/
def nibblesNumber (n : Nat) (v : List Nibble) : Nat := v.foldl (fun m x => m * 16 + x.toNat) n

theorem nibblesNumber_map_nibbleOf (t : List Byte) : nibblesNumber 0 (t.map nibbleOf) = textNumber t := by
  simp only [nibblesNumber, textNumber, List.foldl_map, nibbleOf_toNat]

/-- The zero in front of an odd number of digits does not change the number (R153). -/
theorem nibblesNumber_padNibbles (v : List Nibble) : nibblesNumber 0 (padNibbles v) = nibblesNumber 0 v := by
  unfold padNibbles
  split <;> rfl

/-- A byte made of two nibbles is the high one times 16 and the low one (R152). -/
theorem append_nibbles_toNat (hi lo : Nibble) : (hi ++ lo : Byte).toNat = hi.toNat * 16 + lo.toNat := by
  rw [BitVec.toNat_append, ← Nat.shiftLeft_add_eq_or_of_lt lo.isLt, Nat.shiftLeft_eq]

/-- A byte whose high nibble is zero has the value of its low one (R153). -/
theorem zero_append_nibble (n : Nibble) : ((0 : Nibble) ++ n : Byte) = BitVec.ofNat 8 n.toNat := by revert n; decide

/-- Pairing an even number of digits keeps the number they write after `n`. -/
theorem foldl_pairNibbles (n : Nat) : ∀ v : List Nibble, v.length % 2 = 0 →
    (pairNibbles v).foldl (fun m b => m * 256 + b.toNat) n = nibblesNumber n v
  | [], _ => rfl
  | [_], h => by simp at h
  | hi :: lo :: v, h => by
    have hv : v.length % 2 = 0 := by simpa [Nat.add_assoc] using h
    have hbyte : n * 256 + (hi ++ lo : Byte).toNat = (n * 16 + hi.toNat) * 16 + lo.toNat := by
      rw [append_nibbles_toNat]; omega
    simp only [pairNibbles, nibblesNumber, List.foldl_cons, hbyte]
    exact foldl_pairNibbles _ v hv

/-- The bytes of a padded list of digits write the same number as the digits (R152, R153). -/
theorem bytesNumber_pairNibbles_padNibbles (v : List Nibble) :
    bytesNumber (pairNibbles (padNibbles v)) = nibblesNumber 0 v := by
  have heven : (padNibbles v).length % 2 = 0 := by rw [padNibbles_length]; omega
  rw [bytesNumber, foldl_pairNibbles 0 _ heven, nibblesNumber_padNibbles]

/-- The digits of a byte sequence pair up to it (R151, R152). -/
theorem pairNibbles_map_hexenc (bs : List Byte) : pairNibbles ((hexenc bs).map nibbleOf) = bs := by
  induction bs with
  | nil => rfl
  | cons b bs ih => simp [hexPair, pairNibbles, nibbles_append, ih]

/-! ### The outcome of hexdec -/

theorem firstNonHex_eq_some_iff {t : List Byte} {k : Nat} : firstNonHex t = some k ↔ FirstNonHexAt t k := by
  simp only [firstNonHex, List.findIdx?_eq_some_iff_getElem, isNone_hexval, FirstNonHexAt]
  constructor
  · rintro ⟨hk, hbad, hgood⟩
    refine ⟨⟨t[k], List.getElem?_eq_getElem hk, by simpa using hbad⟩, fun j b hj hb => ?_⟩
    obtain ⟨_, rfl⟩ := List.getElem?_eq_some_iff.1 hb
    simpa using hgood j hj
  · rintro ⟨⟨b, hb, hbad⟩, hgood⟩
    obtain ⟨hk, rfl⟩ := List.getElem?_eq_some_iff.1 hb
    exact ⟨hk, by simpa using hbad, fun j hj => by simpa using hgood j _ hj (List.getElem?_eq_getElem (hj.trans hk))⟩

theorem firstNonHex_eq_none_iff {t : List Byte} : firstNonHex t = none ↔ AllHex t := by
  simp [firstNonHex, List.findIdx?_eq_none_iff, isNone_hexval, AllHex]

/-- hexdec fails with an index exactly where a non-hex character stands there first (R152). -/
theorem hexdec_eq_error_iff {t : List Byte} {k : Nat} : hexdec t = .error k ↔ FirstNonHexAt t k := by
  rw [← firstNonHex_eq_some_iff, hexdec]
  cases firstNonHex t <;> simp

/-- A text of hex digits decodes to the bytes of its padded nibbles (R152, R153). -/
theorem hexdec_of_allHex {t : List Byte} (h : AllHex t) :
    hexdec t = .ok (pairNibbles (padNibbles (t.map nibbleOf))) := by
  have hdigits : t.filterMap hexval = t.map nibbleOf :=
    List.filterMap_eq_map_iff_forall_eq_some.2 fun b hb => hexval_of_isHexDigit (h b hb)
  rw [hexdec, firstNonHex_eq_none_iff.2 h, hdigits]

/-- A text of an even number of hex digits needs no padding. -/
theorem hexdec_of_allHex_even {t : List Byte} (h : AllHex t) (heven : t.length % 2 = 0) :
    hexdec t = .ok (pairNibbles (t.map nibbleOf)) := by
  rw [hexdec_of_allHex h, padNibbles_of_even (by rwa [List.length_map])]

theorem allHex_cons {b : Byte} {t : List Byte} : AllHex (b :: t) ↔ isHexDigit b = true ∧ AllHex t := by
  simp [AllHex]

theorem allHex_hexenc (bs : List Byte) : AllHex (hexenc bs) := by
  induction bs with
  | nil => simp [AllHex]
  | cons b bs ih => simp [hexPair, allHex_cons, ih]

/-- Decoding the text of a byte sequence gives it back (R157). -/
theorem hexdec_hexenc (bs : List Byte) : hexdec (hexenc bs) = .ok bs := by
  have heven : (hexenc bs).length % 2 = 0 := by rw [hexenc_length]; omega
  rw [hexdec_of_allHex_even (allHex_hexenc bs) heven, pairNibbles_map_hexenc]

/-! ### The commands -/

section TextCommands

variable {nHi nLo : Byte} {t bs : List Byte} {k : Nat} (d : List Byte) (s : State)

theorem decode_hexenc (h : d.length = nHi.toNat * 256 + nLo.toNat) :
    decode (0x40 :: nHi :: nLo :: d) = .ok (.hexenc d) :=
  decode_of_operandsOf (o := .hexenc) (by rw [operandsOf, seqOperand_of_length h, Option.map_some])

theorem decode_hexdec (h : t.length = nHi.toNat * 256 + nLo.toNat) :
    decode (0x41 :: nHi :: nLo :: t) = .ok (.hexdec t) :=
  decode_of_operandsOf (o := .hexdec) (by rw [operandsOf, seqOperand_of_length h, Option.map_some])

theorem decode_decode6 (h : t.length = nHi.toNat * 256 + nLo.toNat) :
    decode (0x42 :: nHi :: nLo :: t) = .ok (.decode6 t) :=
  decode_of_operandsOf (o := .decode6) (by rw [operandsOf, seqOperand_of_length h, Option.map_some])

theorem exec_hexenc : exec (.hexenc d) s = .next { s with response := some (0x00 :: hexenc d) } := rfl

theorem exec_hexdec_of_ok (h : hexdec t = .ok bs) :
    exec (.hexdec t) s = .next { s with response := some (0x00 :: bs) } := by
  rw [exec, execHexdec, h]; rfl

theorem exec_hexdec_of_error (h : hexdec t = .error k) : exec (.hexdec t) s =
    .next { s with response := some [0x02, hi8 (BitVec.ofNat 16 k), lo8 (BitVec.ofNat 16 k)] } := by
  rw [exec, execHexdec, h]; rfl

theorem exec_decode6_of_error (h : hexdec t = .error k) : exec (.decode6 t) s =
    .next { s with response := some [0x02, hi8 (BitVec.ofNat 16 k), lo8 (BitVec.ofNat 16 k)] } := by
  rw [exec, execDecode6, h]; rfl

/-- Six decoded bytes are answered as the header of the fields they hold (R156). -/
theorem exec_decode6_of_header {a f : Byte} {r l : Half} (h : hexdec t = .ok (header6 a f r l)) :
    exec (.decode6 t) s = .next { s with response := some (0x00 :: header6 a f r l) } := by
  have hfields : fieldsOf (header6 a f r l) = some (a, f, r, l) := header6_eq_iff.1 rfl
  simp only [exec, execDecode6, h, hfields]; rfl

/-- Another number of decoded bytes raises the info 0xFFFF (R156). -/
theorem exec_decode6_of_length_ne (h : hexdec t = .ok bs) (hlen : bs.length ≠ 6) :
    exec (.decode6 t) s = .next { s with response := some [0x02, 0xFF, 0xFF] } := by
  have hfields : fieldsOf bs = none := Option.not_isSome_iff_eq_none.1 (mt (frameOperand_isSome bs).1 hlen)
  simp only [exec, execDecode6, h, hfields]; rfl

end TextCommands

/-- Every six bytes are the header of some fields (R110). -/
theorem exists_header6_of_length {bs : List Byte} (h : bs.length = 6) : ∃ a f r l, bs = header6 a f r l := by
  obtain ⟨⟨a, f, r, l⟩, hp⟩ := Option.isSome_iff_exists.1 ((frameOperand_isSome bs).2 h)
  exact ⟨a, f, r, l, (header6_eq_iff.2 hp).symm⟩

/-! ### The statements -/

/-- Settles O31: each byte's two digits are those of its quotient and remainder by 16. -/
theorem hexencAnswersTwoDigitsPerByte : Obligations.HexencAnswersTwoDigitsPerByte := by
  unfold Obligations.HexencAnswersTwoDigitsPerByte
  intro nHi nLo d s
  refine ⟨decode_hexenc d, exec_hexenc d s, ?_, hexenc_length d⟩
  rw [hexenc, funext hexPair_eq_upperDigit]

/-- Settles O32: neither reading digits as nibbles, nor padding, nor pairing changes the number written. -/
theorem hexdecKeepsTheNumber : Obligations.HexdecKeepsTheNumber := by
  unfold Obligations.HexdecKeepsTheNumber
  refine ⟨fun t h => ?_, fun t k => hexdec_eq_error_iff⟩
  have hdec := hexdec_of_allHex h
  refine ⟨_, hdec, hexdec_ok_length hdec, ?_⟩
  rw [bytesNumber_pairNibbles_padNibbles, nibblesNumber_map_nibbleOf]

/-- Settles O33: the padding zero and the first digit are the nibbles of the first byte. -/
theorem oddTextFirstDigitStandsAlone : Obligations.OddTextFirstDigitStandsAlone := by
  unfold Obligations.OddTextFirstDigitStandsAlone
  intro b t h heven
  obtain ⟨hb, ht⟩ := allHex_cons.1 h
  have hodd : ((b :: t).map nibbleOf).length % 2 = 1 := by simp only [List.length_map, List.length_cons]; omega
  have hdec : hexdec (b :: t) = .ok (pairNibbles (0 :: nibbleOf b :: t.map nibbleOf)) := by
    rw [hexdec_of_allHex h, padNibbles_of_odd hodd, List.map_cons]
  have hzero : hexdec (0x30 :: b :: t) = .ok (pairNibbles (0 :: nibbleOf b :: t.map nibbleOf)) :=
    hexdec_of_allHex_even (allHex_cons.2 ⟨by decide, h⟩) (by simp only [List.length_cons]; omega)
  refine ⟨hdec.trans hzero.symm, _, hexdec_of_allHex_even ht heven, ?_⟩
  rw [hdec, pairNibbles, zero_append_nibble, nibbleOf_toNat]

/-- Settles O34: the two outcomes of `hexdec`, answered. -/
theorem hexdecAnswersBytesOrIndex : Obligations.HexdecAnswersBytesOrIndex := by
  unfold Obligations.HexdecAnswersBytesOrIndex
  refine fun nHi nLo t s => ⟨decode_hexdec, fun h => ?_, fun k hk => ?_⟩
  · exact ⟨_, hexdec_of_allHex h, exec_hexdec_of_ok s (hexdec_of_allHex h)⟩
  · exact exec_hexdec_of_error s (hexdec_eq_error_iff.2 hk)

/-- Settles O35: a text of hex digits decodes to half as many bytes rounded up, which are 6 for 11 and 12 digits alone. -/
theorem decode6AnswersSixBytesOrError : Obligations.Decode6AnswersSixBytesOrError := by
  unfold Obligations.Decode6AnswersSixBytesOrError
  refine fun nHi nLo t s => ⟨decode_decode6, fun h hlen => ?_, fun h h11 h12 => ?_, fun k hk => ?_⟩
  · have hdec := hexdec_of_allHex h
    have hbytes := hexdec_ok_length hdec
    obtain ⟨a, f, r, l, heq⟩ := exists_header6_of_length (hbytes.trans (by omega))
    rw [heq] at hdec
    exact ⟨a, f, r, l, hdec, exec_decode6_of_header s hdec⟩
  · have hdec := hexdec_of_allHex h
    have hbytes := hexdec_ok_length hdec
    exact exec_decode6_of_length_ne s hdec (by omega)
  · exact exec_decode6_of_error s (hexdec_eq_error_iff.2 hk)

/-- Settles O36: HEXDEC and DECODE6 answer what `hexdec` gives on the text, which is within MAX_SEQ up to 32767 bytes. -/
theorem hexRoundTrip : Obligations.HexRoundTrip := by
  unfold Obligations.HexRoundTrip
  refine ⟨hexdec_hexenc, fun d s hd => ?_, fun a f r l s => exec_decode6_of_header s (hexdec_hexenc _)⟩
  have hwf : (hexenc d).length ≤ 65535 := by rw [hexenc_length]; omega
  exact ⟨hexenc d, _, exec_hexenc d s, rfl, decide_eq_true hwf, exec_hexdec_of_ok _ (hexdec_hexenc d)⟩

end Sys2Proof.Machine
end

section
/-! PROOFS. Errors (60_exceptions.md R175 to R182): a presented byte string is answered `Ok` or `Err`; an `Err` comes from
the decoder or from the text commands alone, writes no register, and leaves only a response, which no later event reads. -/

namespace Sys2Proof

/-- A command that a byte string spells is within the bounds of the encoding (30_encoding.md R60, R67). -/
theorem wf_of_decode {cmd : List Byte} {i : Instr} (h : decode cmd = .ok i) : i.wf = true := by
  cases cmd with
  | nil => simp [decode_nil] at h
  | cons op bs =>
    cases ho : opOf op with
    | none => simp [decode_reserved ho] at h
    | some o =>
      rw [decode_defined ho] at h
      cases hi : operandsOf o bs with
      | none => simp [hi] at h
      | some j =>
        obtain rfl : j = i := by simpa [hi] using h
        obtain ⟨-, -, hwf⟩ := operandsOf_eq_some hi
        exact hwf

theorem hi8_ofNat (k : Nat) : hi8 (BitVec.ofNat 16 k) = BitVec.ofNat 8 (k / 256) := by
  apply BitVec.eq_of_toNat_eq
  rw [hi8_toNat, BitVec.toNat_ofNat, BitVec.toNat_ofNat]
  omega

theorem lo8_ofNat (k : Nat) : lo8 (BitVec.ofNat 16 k) = BitVec.ofNat 8 (k % 256) := by
  apply BitVec.eq_of_toNat_eq
  rw [lo8_toNat, BitVec.toNat_ofNat, BitVec.toNat_ofNat]
  omega

end Sys2Proof

namespace Sys2Proof.Machine

open Sys2Proof.Claims

/-! ### What a command raises -/

/-- Where a command raises MalformedHexError (R177): a text command on a non-hex character, or DECODE6 on hex digits that
decode to another number of bytes than 6. -/
def RaisesMalformedHex (i : Instr) : Prop :=
  ∃ x, ((i = .hexdec x ∨ i = .decode6 x) ∧ ∃ k, FirstNonHexAt x k) ∨
    (i = .decode6 x ∧ AllHex x ∧ (x.length + 1) / 2 ≠ 6)

theorem allHex_of_hexdec_ok {t bs : List Byte} (h : hexdec t = .ok bs) : AllHex t := by
  rw [← firstNonHex_eq_none_iff]
  cases hf : firstNonHex t with
  | none => rfl
  | some k => simp [hexdec, hf] at h

/-- A command answers `00` and a payload, or raises MalformedHexError where R177 says so, and then writes no register. -/
theorem exec_ok_or_malformedHex (i : Instr) (s : State) :
    (∃ fr bs, exec i s = .next { s with frame := fr, response := some (0x00 :: bs) }) ∨
    (RaisesMalformedHex i ∧ ∃ info, exec i s = .next { s with response := some [0x02, hi8 info, lo8 info] }) := by
  cases i
  case setaddr | setfunc | setregh | setregl | setlenh | setlenl | setreg | setlen => exact .inl ⟨_, _, rfl⟩
  case emit | encode | crc16 | hexenc => exact .inl ⟨_, _, rfl⟩
  case hexdec x =>
    obtain ⟨k, hk, hraise⟩ | ⟨bs, -, hok⟩ := execHexdec_cases x s
    · exact .inr ⟨⟨x, .inl ⟨.inl rfl, k, hexdec_eq_error_iff.1 hk⟩⟩, _, hraise⟩
    · exact .inl ⟨s.frame, bs, hok⟩
  case decode6 x =>
    obtain ⟨k, hk, hraise⟩ | ⟨bs, hbs, hlen, hraise⟩ | ⟨bs, -, -, hok⟩ := execDecode6_cases x s
    · exact .inr ⟨⟨x, .inl ⟨.inr rfl, k, hexdec_eq_error_iff.1 hk⟩⟩, _, hraise⟩
    · rw [hexdec_ok_length hbs] at hlen
      exact .inr ⟨⟨x, .inr ⟨rfl, allHex_of_hexdec_ok hbs, hlen⟩⟩, _, hraise⟩
    · exact .inl ⟨s.frame, bs, hok⟩

/-- The index of a non-hex character is the info of MalformedHexError, as two bytes (R177). -/
theorem exec_of_firstNonHexAt {i : Instr} {x : List Byte} {k : Nat} (hi : i = .hexdec x ∨ i = .decode6 x)
    (hk : FirstNonHexAt x k) (s : State) :
    exec i s = .next { s with response := some [0x02, BitVec.ofNat 8 (k / 256), BitVec.ofNat 8 (k % 256)] } := by
  have herr := hexdec_eq_error_iff.2 hk
  rw [← hi8_ofNat, ← lo8_ofNat]
  obtain rfl | rfl := hi
  · exact exec_hexdec_of_error s herr
  · exact exec_decode6_of_error s herr

/-- A text that a command can carry has at most MAX_SEQ characters, so an index in it is below 0xFFFF (R65, R177). -/
theorem firstNonHexAt_le_of_wf {i : Instr} {x : List Byte} {k : Nat} (hi : i = .hexdec x ∨ i = .decode6 x)
    (hwf : i.wf = true) (hk : FirstNonHexAt x k) : k ≤ 0xFFFE := by
  have hlt := hexdec_error_lt (hexdec_eq_error_iff.2 hk)
  have hlen : x.length ≤ 65535 := by obtain rfl | rfl := hi <;> exact of_decide_eq_true hwf
  omega

/-! ### The outcomes of a step on a presented byte string -/

section Presented

variable {s : State} {cmd : List Byte} {rest : List PortEvent}

theorem step_of_decode_ok {i : Instr} (hp : s.port = .command cmd :: rest) (hd : decode cmd = .ok i) :
    step s = exec i { s with port := rest } := by
  rw [step_command hp, runCommand, hd]

theorem step_of_decode_error {e : DecodeError} (hp : s.port = .command cmd :: rest) (hd : decode cmd = .error e) :
    step s = .next { s with port := rest, response := some [0x01, hi8 e.info, lo8 e.info] } := by
  rw [step_command hp, runCommand, hd]
  rfl

/-- The three outcomes of a presented byte string, with the cause of each error (R175 to R177). -/
theorem step_command_cases (hp : s.port = .command cmd :: rest) :
    (∃ fr bs, step s = .next { s with frame := fr, port := rest, response := some (0x00 :: bs) }) ∨
    (∃ info, step s = .next { s with port := rest, response := some [0x01, hi8 info, lo8 info] }) ∨
    (∃ i, decode cmd = .ok i ∧ RaisesMalformedHex i ∧
      ∃ info, step s = .next { s with port := rest, response := some [0x02, hi8 info, lo8 info] }) := by
  cases hd : decode cmd with
  | error e => exact .inr (.inl ⟨e.info, step_of_decode_error hp hd⟩)
  | ok i =>
    rw [step_of_decode_ok hp hd]
    obtain ⟨fr, bs, hok⟩ | ⟨hcause, info, hraise⟩ := exec_ok_or_malformedHex i { s with port := rest }
    · exact .inl ⟨fr, bs, hok⟩
    · exact .inr (.inr ⟨i, rfl, hcause, info, hraise⟩)

/-- `Ok`, or an `Err` whose response is its only effect (R175, R181). -/
theorem step_command_ok_or_err (hp : s.port = .command cmd :: rest) :
    (∃ fr bs, step s = .next { s with frame := fr, port := rest, response := some (0x00 :: bs) }) ∨
    (∃ (code : Byte) (info : Half), (code = 0x01 ∨ code = 0x02) ∧
      step s = .next { s with port := rest, response := some [code, hi8 info, lo8 info] }) := by
  obtain hok | ⟨info, hill⟩ | ⟨-, -, -, info, hmal⟩ := step_command_cases hp
  · exact .inl hok
  · exact .inr ⟨0x01, info, .inl rfl, hill⟩
  · exact .inr ⟨0x02, info, .inr rfl, hmal⟩

end Presented

/-! ### An earlier response does not act on an event -/

/-- No command reads the response port (10_state.md R32). -/
theorem exec_ignores_response (i : Instr) (s : State) (rsp : Option (List Byte)) :
    exec i { s with response := rsp } = exec i s := by
  cases i
  case setaddr | setfunc | setregh | setregl | setlenh | setlenl | setreg | setlen => rfl
  case emit | encode | crc16 | hexenc => rfl
  case hexdec x =>
    unfold exec execHexdec
    cases hexdec x <;> rfl
  case decode6 x =>
    unfold exec execDecode6
    cases hexdec x with
    | error k => rfl
    | ok bs => cases fieldsOf bs <;> rfl

/-- A pending event overwrites the response without reading it. -/
theorem step_ignores_response {s : State} {ev : PortEvent} {rest : List PortEvent} (hp : s.port = ev :: rest)
    (rsp : Option (List Byte)) : step { s with response := rsp } = step s := by
  have hp' : ({ s with response := rsp } : State).port = ev :: rest := hp
  cases ev with
  | reset => rw [step_reset hp, step_reset hp']; rfl
  | command cmd =>
    cases hd : decode cmd with
    | error e => rw [step_of_decode_error hp hd, step_of_decode_error hp' hd]
    | ok i =>
      rw [step_of_decode_ok hp hd, step_of_decode_ok hp' hd]
      exact exec_ignores_response i { s with port := rest } rsp

/-! ### The statements -/

/-- Settles O43: each of the two outcomes gives the whole next state. -/
theorem everyCommandEndsInOkOrErr : Obligations.EveryCommandEndsInOkOrErr := by
  unfold Obligations.EveryCommandEndsInOkOrErr
  intro s cmd rest hp
  obtain ⟨fr, bs, hok⟩ | ⟨code, info, hcode, herr⟩ := step_command_ok_or_err hp
  · exact ⟨_, hok, rfl, rfl, .inl ⟨bs, rfl⟩⟩
  · exact ⟨_, herr, rfl, rfl, .inr ⟨code, info, hcode, rfl, rfl⟩⟩

/-- Settles O44: the decoder's reason for each kind, and the two bytes of its info. -/
theorem illegalCommandAnswersAndWritesNothing : Obligations.IllegalCommandAnswersAndWritesNothing := by
  unfold Obligations.IllegalCommandAnswersAndWritesNothing
  refine fun s cmd rest hp => ⟨?_, ?_, ?_⟩
  · rintro rfl
    exact step_of_decode_error hp decode_nil
  · rintro op bs rfl hop
    obtain ⟨hhi, hlo⟩ := info_bytes_reserved op
    rw [step_of_decode_error hp (decode_reserved (opOf_eq_none hop) bs), hhi, hlo]
  · rintro op bs rfl hop hlen
    obtain ⟨hhi, hlo⟩ := info_bytes_wrongLength op
    rw [step_of_decode_error hp (decode_of_not_lengthOk hop hlen), hhi, hlo]

/-- Settles O45: the two texts that raise the error, and that status 0x02 is the response of no other outcome. -/
theorem malformedHexComesFromTextCommands : Obligations.MalformedHexComesFromTextCommands := by
  unfold Obligations.MalformedHexComesFromTextCommands
  constructor
  · refine fun s cmd rest x hp => ⟨fun k hd hk => ?_, fun hd hall hlen => ?_⟩
    · obtain ⟨i, hi, hdi⟩ : ∃ i, (i = .hexdec x ∨ i = .decode6 x) ∧ decode cmd = .ok i := by
        obtain hd | hd := hd
        · exact ⟨_, .inl rfl, hd⟩
        · exact ⟨_, .inr rfl, hd⟩
      rw [step_of_decode_ok hp hdi]
      exact ⟨firstNonHexAt_le_of_wf hi (wf_of_decode hdi) hk, exec_of_firstNonHexAt hi hk _⟩
    · have hdec := hexdec_of_allHex hall
      rw [← hexdec_ok_length hdec] at hlen
      rw [step_of_decode_ok hp hd]
      exact exec_decode6_of_length_ne _ hdec hlen
  · intro s t cmd rest r hp hstep hresp
    obtain ⟨fr, bs, hok⟩ | ⟨info, hill⟩ | ⟨i, hd, ⟨x, hcause⟩, -⟩ := step_command_cases hp
    · obtain rfl := Host.Outcome.next.inj (hok.symm.trans hstep)
      simp at hresp
    · obtain rfl := Host.Outcome.next.inj (hill.symm.trans hstep)
      simp at hresp
    · exact ⟨x, by simpa [hd] using hcause⟩

/-- Settles O46: after an error only the response differs, and the next event does not read it. -/
theorem errorsLeaveTheNextEventUnaffected : Obligations.ErrorsLeaveTheNextEventUnaffected := by
  unfold Obligations.ErrorsLeaveTheNextEventUnaffected
  intro s t cmd ev rest code r hp hstep hresp hcode
  obtain ⟨fr, bs, hok⟩ | ⟨_, info, -, herr⟩ := step_command_ok_or_err hp
  · obtain rfl := Host.Outcome.next.inj (hok.symm.trans hstep)
    obtain ⟨rfl, -⟩ : (0x00 : Byte) = code ∧ bs = r := by simpa using hresp
    exact absurd rfl hcode
  · obtain rfl := Host.Outcome.next.inj (herr.symm.trans hstep)
    exact step_ignores_response (s := { s with port := ev :: rest }) rfl _

end Sys2Proof.Machine
end

section
/-! PROOFS. Reset and the order of the setters (70_reset_and_hazards.md R200, R201, R203): what the registers and the FRAME
output are after a reset, and why a SETFUNC that a field setter follows is lost. -/

namespace Sys2Proof.Machine

open Sys2Proof.Claims

/-! ### Sequences of commands -/

/-- Every command goes on (60_exceptions.md R175). -/
theorem exec_completes (i : Instr) (s : State) : ∃ t, exec i s = .next t := by
  obtain ⟨_, h⟩ | ⟨_, h⟩ | ⟨_, h⟩ := exec_cases i s
  · exact ⟨_, h⟩
  · exact ⟨_, h⟩
  · exact ⟨_, h⟩

theorem execSeq_completes (is : List Instr) (s : State) : ∃ t, execSeq is s = .next t := by
  induction is generalizing s with
  | nil => exact ⟨s, rfl⟩
  | cons i is ih =>
    obtain ⟨t, ht⟩ := exec_completes i s
    rw [execSeq_cons_of_next ht]
    exact ih t

/-- A sequence goes on from the state its first part leaves (20_memory.md R48). -/
theorem execSeq_append_of_next {is : List Instr} {s t : State} (h : execSeq is s = .next t) (js : List Instr) :
    execSeq (is ++ js) s = execSeq js t := by
  induction is generalizing s with
  | nil =>
    obtain rfl : s = t := by simpa using h
    rfl
  | cons i is ih =>
    obtain ⟨u, hu⟩ := exec_completes i s
    rw [execSeq_cons_of_next hu] at h
    rw [List.cons_append, execSeq_cons_of_next hu]
    exact ih h

/-! ### The order of the setters -/

/-- Whatever ran before it, a field setter at the end of a sequence leaves the function 0x03 and answers `00` (R203). -/
theorem execSeq_append_fieldSetter {i : Instr} (hi : isFieldSetter i = true) (is : List Instr) (s : State) :
    ∃ t, execSeq (is ++ [i]) s = .next t ∧ t.frame.func = 0x03 ∧ t.response = some [0x00] := by
  obtain ⟨u, hu⟩ := execSeq_completes is s
  obtain ⟨w, hw⟩ := exec_fieldSetter_eq hi u
  rw [execSeq_append_of_next hu, execSeq_cons_of_next hw]
  exact ⟨_, rfl, forceFunction_func w, respond_response ..⟩

/-- Whatever ran before it, a SETFUNC at the end of a sequence stands. -/
theorem execSeq_append_setfunc (v : Byte) (is : List Instr) (s : State) :
    ∃ t, execSeq (is ++ [.setfunc v]) s = .next t ∧ t.frame.func = v := by
  obtain ⟨u, hu⟩ := execSeq_completes is s
  rw [execSeq_append_of_next hu, execSeq_cons_of_next (exec_setfunc v u)]
  exact ⟨_, rfl, rfl⟩

/-- Settles O12: the last command decides FUNC, so an earlier SETFUNC is lost to a field setter and a later one stands. -/
theorem setfuncBeforeFieldSetterIsLost : Obligations.SetfuncBeforeFieldSetterIsLost := by
  unfold Obligations.SetfuncBeforeFieldSetterIsLost
  intro v mid i s hi
  constructor
  · exact execSeq_append_fieldSetter hi (.setfunc v :: mid) s
  · have hsplit : Instr.setfunc v :: (mid ++ [i, .setfunc v]) = (.setfunc v :: (mid ++ [i])) ++ [.setfunc v] := by simp
    rw [hsplit]
    exact execSeq_append_setfunc v _ s

/-! ### Reset -/

/-- Settles O52: the reset event is taken from the port, and the registers are then those of the machine after reset. -/
theorem resetEventLoadsFrameReset : Obligations.ResetEventLoadsFrameReset := by
  unfold Obligations.ResetEventLoadsFrameReset
  intro s rest hp
  refine ⟨step_reset hp, fun t ht => ?_⟩
  obtain rfl := Host.Outcome.next.inj ((step_reset hp).symm.trans ht)
  obtain ⟨-, hregisters⟩ := frameOutputIsAFunctionOfTheRegisters
  exact hregisters _ _ rfl

/-- Settles O53: each register reads its byte of FRAME_RESET, and the FRAME output is the frame of the registers. -/
theorem resetHoldsFrameResetForEveryValue : Obligations.ResetHoldsFrameResetForEveryValue := by
  unfold Obligations.ResetHoldsFrameResetForEveryValue
  intro a f rH rL lH lL
  exact ⟨_, rfl, rfl, rfl, rfl, rfl, rfl, rfl, rfl, rfl, frameOut_eq_encode8 _⟩

end Sys2Proof.Machine
end

section
/-! PROOFS. Decode and encode are inverse to one another (30_encoding.md R60 to R67, R74), and which infos the decoder's
errors carry (R71). -/

namespace Sys2Proof.Machine

/-! ### Commands from their bytes -/

/-- The operand bytes of a well-formed command are read back as that command (R74). -/
theorem operandsOf_operandBytes {i : Instr} (hwf : i.wf = true) : operandsOf i.op (operandBytes i) = some i := by
  cases i
  case setaddr | setfunc | setregh | setregl | setlenh | setlenl | emit => rfl
  case setreg v | setlen v =>
    have hv : halfOperand [hi8 v, lo8 v] = some v := halfOperand_eq_some.2 rfl
    simp [Instr.op, operandBytes, operandsOf, hv]
  case encode a f r l =>
    have hfields : frameOperand [a, f, hi8 r, lo8 r, hi8 l, lo8 l] = some (a, f, r, l) := header6_eq_iff.1 rfl
    simp [Instr.op, operandBytes, operandsOf, hfields]
  case crc16 d | hexenc d | hexdec d | decode6 d =>
    have hd : seqOperand (seqBytes d) = some d := seqOperand_seqBytes (of_decide_eq_true hwf)
    simp [Instr.op, operandBytes, operandsOf, hd]

theorem decode_encode {i : Instr} (hwf : i.wf = true) : decode (encode i) = .ok i :=
  decode_of_operandsOf (operandsOf_operandBytes hwf)

/-- What the decoder found where it succeeds: an opcode byte and operand bytes of its format (R67). -/
theorem decode_eq_ok {cmd : List Byte} {i : Instr} (h : decode cmd = .ok i) :
    ∃ o bs, cmd = o.byte :: bs ∧ operandsOf o bs = some i := by
  cases cmd with
  | nil => simp [decode_nil] at h
  | cons op bs =>
    cases ho : opOf op with
    | none => simp [decode_reserved ho] at h
    | some o =>
      cases hi : operandsOf o bs with
      | none => simp [decode_defined ho, hi] at h
      | some j =>
        obtain rfl : j = i := by simpa [decode_defined ho, hi] using h
        exact ⟨o, bs, by rw [byte_of_opOf ho], hi⟩

theorem encode_of_decode {cmd : List Byte} {i : Instr} (h : decode cmd = .ok i) : encode i = cmd := by
  obtain ⟨o, bs, rfl, hi⟩ := decode_eq_ok h
  obtain ⟨hop, hbytes, -⟩ := operandsOf_eq_some hi
  rw [encode, hop, hbytes]

/-- Settles O39: the operands of each format are read back from their bytes. -/
theorem decodeOfEncodeIsTheCommand : Obligations.DecodeOfEncodeIsTheCommand := by
  unfold Obligations.DecodeOfEncodeIsTheCommand
  exact fun i hwf => decode_encode hwf

/-- Settles O40: the decoder succeeds on an opcode byte and operand bytes alone, and keeps them all. -/
theorem encodeOfDecodeIsTheBytes : Obligations.EncodeOfDecodeIsTheBytes := by
  unfold Obligations.EncodeOfDecodeIsTheBytes
  exact fun cmd i h => ⟨encode_of_decode h, wf_of_decode h⟩

/-- Settles O41: each command is assembled from its opcode's operand bytes. -/
theorem writtenOutWordsDecode : Obligations.WrittenOutWordsDecode := by
  unfold Obligations.WrittenOutWordsDecode
  have hreg : cat16 0x00 0x6B = 0x006B := by decide
  have hstart : cat16 0x00 0x00 = 0x0000 := by decide
  have hcount : cat16 0x00 0x0A = 0x000A := by decide
  rw [← hreg, ← hstart, ← hcount]
  exact ⟨decode_of_operandsOf (o := .setaddr) rfl, decode_of_operandsOf (o := .setreg) rfl,
    decode_of_operandsOf (o := .emit) rfl, decode_of_operandsOf (o := .encode) rfl,
    decode_crc16 rfl, decode_hexdec rfl⟩

/-- Settles O42: the assembler is executable, and each example is read by running it. -/
theorem assemblerReadsTheExamples : Obligations.AssemblerReadsTheExamples := by
  unfold Obligations.AssemblerReadsTheExamples
  decide +kernel

/-- Settles O50: the event taken from the port is decoded and executed. -/
theorem stepRunsTheDecodedCommand : Obligations.StepRunsTheDecodedCommand := by
  unfold Obligations.StepRunsTheDecodedCommand
  exact fun s cmd rest i hp hd => step_of_decode_ok hp hd

end Sys2Proof.Machine
end

section
/-! PROOFS. The registers (10_state.md R25, R26; 40_frame_setters.md R101, R102): what every command leaves in each
register, hence what a sequence of commands leaves. -/

namespace Sys2Proof.Machine

open Sys2Proof.Claims

/-! ### One command -/

theorem readReg_of_frame_eq {s t : State} (h : t.frame = s.frame) (r : FrameReg) : t.readReg r = s.readReg r := by
  cases r <;> simp only [State.readReg, h]

theorem writes_of_not_isSetter {i : Instr} (hi : isSetter i = false) (r : FrameReg) : writes r i = none := by
  cases i
  case setaddr | setfunc | setregh | setregl | setlenh | setlenl | setreg | setlen => simp [isSetter] at hi
  case emit | encode | crc16 | hexenc | hexdec | decode6 => rfl

/-- The access table of R26: a register holds what the command writes to it, or what it held. -/
theorem exec_readReg {i : Instr} {s t : State} (h : exec i s = .next t) (r : FrameReg) :
    t.readReg r = (writes r i).getD (s.readReg r) := by
  cases hi : isSetter i with
  | false => rw [writes_of_not_isSetter hi, readReg_of_frame_eq (exec_frame_of_not_isSetter hi h), Option.getD_none]
  | true =>
    cases i
    case setaddr | setfunc | setregh | setregl | setlenh | setlenl | setreg | setlen =>
      obtain rfl := Host.Outcome.next.inj h
      cases r <;> rfl
    case emit | encode | crc16 | hexenc | hexdec | decode6 => simp [isSetter] at hi

/-- No command writes the model's fields beside the registers and the response (log entries 1 and 4). -/
theorem exec_keeps_port_frameReset {i : Instr} {s t : State} (h : exec i s = .next t) :
    t.port = s.port ∧ t.frameReset = s.frameReset := by
  obtain ⟨fr, bs, hok⟩ | ⟨-, info, herr⟩ := exec_ok_or_malformedHex i s
  · obtain rfl := Host.Outcome.next.inj (hok.symm.trans h)
    exact ⟨rfl, rfl⟩
  · obtain rfl := Host.Outcome.next.inj (herr.symm.trans h)
    exact ⟨rfl, rfl⟩

/-- Settles O16: the access table, read off every command. -/
theorem commandsWriteOnlyTheirRegisters : Obligations.CommandsWriteOnlyTheirRegisters := by
  unfold Obligations.CommandsWriteOnlyTheirRegisters
  exact fun i s t r h => exec_readReg h r

/-! ### Sequences of commands -/

@[simp] theorem lastWrite_nil (r : FrameReg) : lastWrite r [] = none := rfl

/-- A later write of the register stands in place of an earlier one (R101). -/
@[simp] theorem lastWrite_cons (r : FrameReg) (i : Instr) (is : List Instr) :
    lastWrite r (i :: is) = (lastWrite r is).or (writes r i) := by
  simp [lastWrite, List.findSome?_append]

theorem execSeq_readReg {is : List Instr} {s t : State} (h : execSeq is s = .next t) (r : FrameReg) :
    t.readReg r = (lastWrite r is).getD (s.readReg r) := by
  induction is generalizing s with
  | nil =>
    obtain rfl : s = t := by simpa using h
    rfl
  | cons i is ih =>
    obtain ⟨u, hu⟩ := exec_completes i s
    rw [execSeq_cons_of_next hu] at h
    rw [ih h, exec_readReg hu r, lastWrite_cons]
    cases lastWrite r is <;> rfl

theorem execSeq_keeps_port_frameReset {is : List Instr} {s t : State} (h : execSeq is s = .next t) :
    t.port = s.port ∧ t.frameReset = s.frameReset := by
  induction is generalizing s with
  | nil =>
    obtain rfl : s = t := by simpa using h
    exact ⟨rfl, rfl⟩
  | cons i is ih =>
    obtain ⟨u, hu⟩ := exec_completes i s
    obtain ⟨hport, hreset⟩ := exec_keeps_port_frameReset hu
    rw [execSeq_cons_of_next hu] at h
    rw [← hport, ← hreset]
    exact ih h

/-- The response after a non-empty sequence of setters is that of its last. -/
theorem execSeq_setters_response {is : List Instr} (hne : is ≠ []) (his : ∀ i ∈ is, isSetter i = true)
    {s t : State} (h : execSeq is s = .next t) : t.response = some [0x00] := by
  obtain ⟨u, hu, hresp⟩ := execSeq_setters_responds hne his s
  obtain rfl := Host.Outcome.next.inj (hu.symm.trans h)
  exact hresp

/-- Settles O10: the registers of any sequence of commands, and the response of a setter. -/
theorem setterSequenceLeavesLastWrites : Obligations.SetterSequenceLeavesLastWrites := by
  unfold Obligations.SetterSequenceLeavesLastWrites
  intro is s his
  obtain ⟨t, ht⟩ := execSeq_completes is s
  obtain ⟨hport, hreset⟩ := execSeq_keeps_port_frameReset ht
  exact ⟨t, ht, execSeq_readReg ht, hport, hreset, fun hne => execSeq_setters_response hne his ht⟩

/-! ### Sequences of setters that write the same -/

theorem state_eq_of_readReg {s t : State} (hreg : ∀ r, s.readReg r = t.readReg r) (hresp : s.response = t.response)
    (hport : s.port = t.port) (hreset : s.frameReset = t.frameReset) : s = t := by
  have hframe := frame_eq_of_readReg hreg
  cases s
  cases t
  simp_all only

/-- Two non-empty sequences of setters with the same last write of each register leave the same state. -/
theorem execSeq_setters_eq {is js : List Instr} (hne : is ≠ []) (his : ∀ i ∈ is, isSetter i = true)
    (hne' : js ≠ []) (hjs : ∀ j ∈ js, isSetter j = true) (hlast : ∀ r, lastWrite r is = lastWrite r js) (s : State) :
    execSeq is s = execSeq js s := by
  obtain ⟨t, ht⟩ := execSeq_completes is s
  obtain ⟨u, hu⟩ := execSeq_completes js s
  obtain ⟨hportT, hresetT⟩ := execSeq_keeps_port_frameReset ht
  obtain ⟨hportU, hresetU⟩ := execSeq_keeps_port_frameReset hu
  have hresp : t.response = u.response :=
    (execSeq_setters_response hne his ht).trans (execSeq_setters_response hne' hjs hu).symm
  have hreg (r : FrameReg) : t.readReg r = u.readReg r := by
    rw [execSeq_readReg ht, execSeq_readReg hu, hlast]
  rw [ht, hu, state_eq_of_readReg hreg hresp (hportT.trans hportU.symm) (hresetT.trans hresetU.symm)]

theorem isSetter_of_isFieldSetter {i : Instr} (hi : isFieldSetter i = true) : isSetter i = true := by
  cases i
  case setaddr | setregh | setregl | setlenh | setlenl | setreg | setlen => rfl
  case setfunc | emit | encode | crc16 | hexenc | hexdec | decode6 => simp [isFieldSetter] at hi

theorem writes_func_of_isFieldSetter {i : Instr} (hi : isFieldSetter i = true) : writes .func i = some 0x03 := by
  cases i
  case setaddr | setregh | setregl | setlenh | setlenl | setreg | setlen => rfl
  case setfunc | emit | encode | crc16 | hexenc | hexdec | decode6 => simp [isFieldSetter] at hi

theorem execSeq_singleton (i : Instr) (s : State) : execSeq [i] s = exec i s := by
  obtain ⟨t, ht⟩ := exec_completes i s
  rw [execSeq_cons_of_next ht, execSeq_nil, ht]

/-- Settles O11: in either order, and once or twice, each register has the same last write; FUNC's is 0x03 in both
orders. -/
theorem settersCommuteAndRepeat : Obligations.SettersCommuteAndRepeat := by
  unfold Obligations.SettersCommuteAndRepeat
  constructor
  · intro i j s hi hj hdisjoint
    have hsi := isSetter_of_isFieldSetter hi
    have hsj := isSetter_of_isFieldSetter hj
    refine execSeq_setters_eq (by simp) (by simp [hsi, hsj]) (by simp) (by simp [hsi, hsj]) (fun r => ?_) s
    by_cases hr : r = .func
    · simp [hr, writes_func_of_isFieldSetter hi, writes_func_of_isFieldSetter hj]
    · obtain hnone | hnone := hdisjoint r hr <;> simp [hnone]
  · intro i s hi
    rw [← execSeq_singleton]
    exact execSeq_setters_eq (by simp) (by simp [hi]) (by simp) (by simp [hi]) (fun r => by simp) s

/-! ### The register an opcode names, and the frames LOADFRAME reaches -/

/-- The setter of one register (R66). -/
def setterOf (r : FrameReg) (v : Byte) : Instr :=
  match r with
  | .addr => .setaddr v
  | .func => .setfunc v
  | .regH => .setregh v
  | .regL => .setregl v
  | .lenH => .setlenh v
  | .lenL => .setlenl v

theorem encode_setterOf (r : FrameReg) (v : Byte) : encode (setterOf r v) = [0x10 + BitVec.ofNat 8 r.index, v] := by
  cases r <;> rfl

theorem wf_setterOf (r : FrameReg) (v : Byte) : (setterOf r v).wf = true := by cases r <;> rfl

theorem writes_setterOf (r : FrameReg) (v : Byte) : writes r (setterOf r v) = some v := by cases r <;> rfl

/-- Settles O15: the setter of the register is spelt by that opcode and writes its operand there. -/
theorem opcodeSelectsTheRegister : Obligations.OpcodeSelectsTheRegister := by
  unfold Obligations.OpcodeSelectsTheRegister
  intro r v s
  obtain ⟨t, ht⟩ := exec_completes (setterOf r v) s
  refine ⟨setterOf r v, t, ?_, ht, ?_⟩
  · rw [← encode_setterOf, decode_encode (wf_setterOf r v)]
  · rw [exec_readReg ht, writes_setterOf, Option.getD_some]

/-- Settles O13: LOADFRAME loads the halves it is given. -/
theorem everyFrameIsReachable : Obligations.EveryFrameIsReachable := by
  unfold Obligations.EveryFrameIsReachable
  intro f s
  refine ⟨_, execSeq_loadframe .., by simp only [hi8_cat16, lo8_cat16], ?_⟩
  rw [frameOut_eq_encode8, encode8_length]

end Sys2Proof.Machine
end

section
/-! PROOFS. The algebra of the checksum and of the frame it closes (42_crc16.md R126 to R138; 41_frame_encode.md R117,
R118): a sequence followed by its own checksum, low byte first, has the checksum zero. -/

namespace Sys2Proof.Machine

/-! ### The loop -/

theorem crc16_append (xs ys : List Byte) : crc16 (xs ++ ys) = crc16From (crc16 xs) ys := crc16From_append ..

/-- Settles O28: the loop splits at a concatenation. -/
theorem crcContinuesOverConcatenation : Obligations.CrcContinuesOverConcatenation := by
  unfold Obligations.CrcContinuesOverConcatenation
  exact ⟨crc16_nil, crc16_append⟩

/-- Settles O26: each entry is eight bit steps, written out. -/
theorem tableListsEightBitSteps : Obligations.TableListsEightBitSteps := by
  unfold Obligations.TableListsEightBitSteps
  exact ⟨crcTab_length, crcTabAt_eq_bitsteps⟩

theorem zext16_eq_ofNat (b : Byte) : zext16 b = BitVec.ofNat 16 b.toNat := (BitVec.ofNat_toNat 16 b).symm

/-- A bit step halves the accumulator, and the polynomial enters where it was odd (R126). -/
theorem bitstep_toNat (c : Half) :
    (bitstep c).toNat = if c.toNat % 2 = 1 then (c.toNat / 2) ^^^ 0xA001 else c.toNat / 2 := by
  have hhalf : (c >>> 1).toNat = c.toNat / 2 := by rw [BitVec.toNat_ushiftRight, Nat.shiftRight_one]
  have hodd : c.getLsbD 0 = true ↔ c.toNat % 2 = 1 := by
    rw [BitVec.getLsbD, Nat.testBit_zero, decide_eq_true_iff]
  simp only [bitstep, hodd]
  split
  · rw [BitVec.toNat_xor, hhalf]; rfl
  · exact hhalf

/-- Settles O27: the last byte's step written out, and a bit step as arithmetic. -/
theorem crcRunsTheModbusLoop : Obligations.CrcRunsTheModbusLoop := by
  unfold Obligations.CrcRunsTheModbusLoop
  refine ⟨crc16_nil, fun bs b => ?_, bitstep_toNat⟩
  rw [crc16_append, ← zext16_eq_ofNat]
  rfl

/-! ### The residue of a frame -/

/-- The low byte of the accumulator cancels itself, and its high byte moves down (R132). -/
theorem bytestepBit_lo8 (c : Half) : bytestepBit c (lo8 c) = zext16 (hi8 c) := by
  have hcancel : c ^^^ zext16 (lo8 c) = cat16 (hi8 c) 0 := by
    calc c ^^^ zext16 (lo8 c) = cat16 (hi8 c) 0 ^^^ zext16 (lo8 c) ^^^ zext16 (lo8 c) := by rw [← high_xor_low]
      _ = cat16 (hi8 c) 0 := by rw [BitVec.xor_assoc, BitVec.xor_self, BitVec.xor_zero]
  rw [bytestepBit, hcancel, bitsteps_high]

/-- The checksum that continues from `c` over the bytes of `c`, low byte first, is zero. -/
theorem crc16From_own_bytes (c : Half) : crc16From c [lo8 c, hi8 c] = 0x0000 := by
  have hzero : bytestepBit (zext16 (hi8 c)) (hi8 c) = 0x0000 := by
    rw [bytestepBit, BitVec.xor_self]; decide
  rw [crc16From_cons, bytestepBit_lo8, crc16From_cons, hzero, crc16From_nil]

theorem crc16_append_checksum (bs : List Byte) : crc16 (bs ++ [lo8 (crc16 bs), hi8 (crc16 bs)]) = 0x0000 := by
  rw [crc16_append, crc16From_own_bytes]

/-- Settles O24: a frame is its header followed by the header's checksum. -/
theorem frameResidueIsZero : Obligations.FrameResidueIsZero := by
  unfold Obligations.FrameResidueIsZero
  exact fun a f r l => crc16_append_checksum (header6 a f r l)

/-! ### EMIT and ENCODE -/

/-- EMIT after LOADFRAME answers the frame of the fields (R117). -/
theorem execSeq_loadframe_emit (a f : Byte) (r l : Half) (s : State) :
    ∃ t, execSeq ((Pseudo.loadframe a f r l).expand ++ [.emit]) s = .next t ∧
      t.response = some (0x00 :: encode8 a f r l) := by
  rw [execSeq_append_of_next (execSeq_loadframe a f r l s), execSeq_cons_of_next (exec_emit _)]
  refine ⟨_, rfl, ?_⟩
  simp only [frameOut_eq_encode8, cat16_hi8_lo8]

/-- Settles O23: both commands answer the frame of the fields, and its first six bytes are the header. -/
theorem emitAfterLoadframeAgreesWithEncode : Obligations.EmitAfterLoadframeAgreesWithEncode := by
  unfold Obligations.EmitAfterLoadframeAgreesWithEncode
  intro a f r l s
  obtain ⟨t, ht, hresp⟩ := execSeq_loadframe_emit a f r l s
  have hdecode := exec_decode6_of_header s (hexdec_hexenc (header6 a f r l))
  rw [encode8_take_six]
  exact ⟨t, _, _, ht, exec_encode a f r l s, hresp, hresp, hdecode, rfl⟩

end Sys2Proof.Machine
end

section
/-! PROOFS. The digits of hexadecimal text read and written again (43_hex_text.md R150, R158). -/

namespace Sys2Proof.Machine

open Sys2Proof.Claims

/-- Settles O30: the two tables of digits. -/
theorem hexDigitsAreTheTwentyTwo : Obligations.HexDigitsAreTheTwentyTwo := by
  unfold Obligations.HexDigitsAreTheTwentyTwo
  exact ⟨hexval_eq_lookup, hexchar_eq_upperDigit, rfl⟩

/-- The digits of a byte made of two nibbles are those of the nibbles (R151). -/
theorem hexPair_append (hi lo : Nibble) : hexPair (hi ++ lo) = [hexchar hi, hexchar lo] := by
  revert hi lo; decide

/-- Pairing an even number of nibbles and writing the bytes writes the nibbles (R151, R152). -/
theorem hexenc_pairNibbles : ∀ v : List Nibble, v.length % 2 = 0 → hexenc (pairNibbles v) = v.map hexchar
  | [], _ => rfl
  | [_], h => by simp at h
  | hi :: lo :: v, h => by
    have hv : v.length % 2 = 0 := by simpa [Nat.add_assoc] using h
    rw [pairNibbles, hexenc_cons, hexPair_append, hexenc_pairNibbles v hv]
    rfl

/-- A hex digit read and written again is that digit in upper case (R158). -/
theorem hexchar_nibbleOf {b : Byte} (h : isHexDigit b = true) : hexchar (nibbleOf b) = upperCase b := by
  revert b; decide

theorem map_hexchar_nibbleOf {t : List Byte} (h : AllHex t) : (t.map nibbleOf).map hexchar = t.map upperCase := by
  rw [List.map_map]
  exact List.map_congr_left fun b hb => hexchar_nibbleOf (h b hb)

/-- The padding nibble is written as the digit `0` in front (R153, R158). -/
theorem map_hexchar_padNibbles {t : List Byte} (h : AllHex t) : (padNibbles (t.map nibbleOf)).map hexchar =
    if t.length % 2 = 1 then 0x30 :: t.map upperCase else t.map upperCase := by
  have hzero : hexchar 0 = 0x30 := by decide
  simp only [padNibbles, List.length_map]
  split
  · rw [List.map_cons, hzero, map_hexchar_nibbleOf h]
  · exact map_hexchar_nibbleOf h

/-- Settles O37: the decoded bytes are the pairs of the padded nibbles. -/
theorem hexencOfHexdecNormalises : Obligations.HexencOfHexdecNormalises := by
  unfold Obligations.HexencOfHexdecNormalises
  intro t h
  have heven : (padNibbles (t.map nibbleOf)).length % 2 = 0 := by rw [padNibbles_length]; omega
  exact ⟨_, hexdec_of_allHex h, by rw [hexenc_pairNibbles _ heven, map_hexchar_padNibbles h]⟩

end Sys2Proof.Machine
end

section
/-! PROOFS. Responses (30_encoding.md R70, R71; 10_state.md R26, R32): their lengths, what they depend on, and that the
port returns no others. -/

namespace Sys2Proof.Machine

open Sys2Proof.Claims

/-! ### The two outcomes of a command, with the payload's length -/

/-- A command answers `00` and a payload of the length of R70, or raises MalformedHexError. -/
theorem exec_response_cases (i : Instr) (s : State) : ∃ t, exec i s = .next t ∧
    ((∃ bs, t.response = some (0x00 :: bs) ∧ bs.length = payloadLength i) ∨
      ∃ info, t.response = some [0x02, hi8 info, lo8 info]) := by
  cases i
  case setaddr | setfunc | setregh | setregl | setlenh | setlenl | setreg | setlen | crc16 =>
    exact ⟨_, rfl, .inl ⟨_, rfl, rfl⟩⟩
  case emit => exact ⟨_, exec_emit s, .inl ⟨_, rfl, by rw [frameOut_eq_encode8, encode8_length]; rfl⟩⟩
  case encode a f r l => exact ⟨_, exec_encode a f r l s, .inl ⟨_, rfl, encode8_length a f r l⟩⟩
  case hexenc d => exact ⟨_, exec_hexenc d s, .inl ⟨_, rfl, hexenc_length d⟩⟩
  case hexdec x =>
    obtain ⟨_, -, hraise⟩ | ⟨bs, hbs, hok⟩ := execHexdec_cases x s
    · exact ⟨_, hraise, .inr ⟨_, rfl⟩⟩
    · exact ⟨_, hok, .inl ⟨bs, rfl, hexdec_ok_length hbs⟩⟩
  case decode6 x =>
    obtain ⟨_, -, hraise⟩ | ⟨_, -, -, hraise⟩ | ⟨bs, -, hlen, hok⟩ := execDecode6_cases x s
    · exact ⟨_, hraise, .inr ⟨_, rfl⟩⟩
    · exact ⟨_, hraise, .inr ⟨_, rfl⟩⟩
    · exact ⟨_, hok, .inl ⟨bs, rfl, hlen⟩⟩

/-- Settles O47: a response that opens with `00` is not an error's. -/
theorem payloadsHaveTheirLengths : Obligations.PayloadsHaveTheirLengths := by
  unfold Obligations.PayloadsHaveTheirLengths
  intro i s t bs h hresp
  obtain ⟨u, hu, hcases⟩ := exec_response_cases i s
  obtain rfl := Host.Outcome.next.inj (hu.symm.trans h)
  obtain ⟨ps, hok, hlen⟩ | ⟨info, herr⟩ := hcases
  · obtain rfl : ps = bs := by simpa [hresp] using hok.symm
    exact hlen
  · simp [hresp] at herr

/-! ### What a response depends on -/

/-- Settles O48: the text commands answer what `hexdec` gives on the text, and the other three a function of the
operands. -/
theorem pureCommandsIgnoreTheRegisters : Obligations.PureCommandsIgnoreTheRegisters := by
  unfold Obligations.PureCommandsIgnoreTheRegisters
  intro i hi
  cases i
  case setaddr | setfunc | setregh | setregl | setlenh | setlenl | setreg | setlen | emit => simp [isPure] at hi
  case encode a f r l => exact ⟨_, exec_encode a f r l⟩
  case crc16 d => exact ⟨_, exec_crc16 d⟩
  case hexenc d => exact ⟨_, exec_hexenc d⟩
  case hexdec x =>
    cases hx : hexdec x with
    | error k => exact ⟨_, fun s => exec_hexdec_of_error s hx⟩
    | ok bs => exact ⟨_, fun s => exec_hexdec_of_ok s hx⟩
  case decode6 x =>
    cases hx : hexdec x with
    | error k => exact ⟨_, fun s => exec_decode6_of_error s hx⟩
    | ok bs =>
      by_cases hlen : bs.length = 6
      · obtain ⟨a, f, r, l, rfl⟩ := exists_header6_of_length hlen
        exact ⟨_, fun s => exec_decode6_of_header s hx⟩
      · exact ⟨_, fun s => exec_decode6_of_length_ne s hx hlen⟩

/-- The commands are the setters, EMIT and the pure commands (10_state.md R26). -/
theorem instr_effect_cases (i : Instr) : isSetter i = true ∨ i = .emit ∨ isPure i = true := by
  cases i <;> simp [isSetter, isPure]

/-- Of two states with the same registers, a command makes the same response (R32). -/
theorem exec_response_eq {i : Instr} {s u t v : State} (hframe : s.frame = u.frame) (ht : exec i s = .next t)
    (hv : exec i u = .next v) : t.response = v.response := by
  obtain hset | rfl | hpure := instr_effect_cases i
  · obtain ⟨t', ht', hrespT⟩ := exec_setter_responds hset s
    obtain ⟨v', hv', hrespV⟩ := exec_setter_responds hset u
    obtain rfl := Host.Outcome.next.inj (ht'.symm.trans ht)
    obtain rfl := Host.Outcome.next.inj (hv'.symm.trans hv)
    rw [hrespT, hrespV]
  · obtain rfl := Host.Outcome.next.inj ((exec_emit s).symm.trans ht)
    obtain rfl := Host.Outcome.next.inj ((exec_emit u).symm.trans hv)
    simp only [frameOut_eq_encode8, hframe]
  · obtain ⟨rsp, hrsp⟩ := pureCommandsIgnoreTheRegisters i hpure
    obtain rfl := Host.Outcome.next.inj ((hrsp s).symm.trans ht)
    obtain rfl := Host.Outcome.next.inj ((hrsp u).symm.trans hv)
    rfl

/-- Of two states with the same registers, a command makes states with the same registers (R32). -/
theorem exec_frame_eq {i : Instr} {s u t v : State} (hframe : s.frame = u.frame) (ht : exec i s = .next t)
    (hv : exec i u = .next v) : t.frame = v.frame :=
  frame_eq_of_readReg fun r => by rw [exec_readReg ht, exec_readReg hv, readReg_of_frame_eq hframe]

/-- Settles O49: every command completes, and its effect is the same from both states. -/
theorem effectDependsOnRegistersAndCommand : Obligations.EffectDependsOnRegistersAndCommand := by
  unfold Obligations.EffectDependsOnRegistersAndCommand
  intro i s u hframe
  obtain ⟨t, ht⟩ := exec_completes i s
  obtain ⟨v, hv⟩ := exec_completes i u
  exact ⟨t, v, ht, hv, exec_frame_eq hframe ht hv, exec_response_eq hframe ht hv⟩

/-! ### The responses the port returns -/

/-- The decoder's errors carry the infos of R71 alone. -/
theorem illegalInfo_of_decode_error {cmd : List Byte} {e : DecodeError} (h : decode cmd = .error e) :
    illegalInfo e.info = true := by
  cases cmd with
  | nil =>
    obtain rfl : DecodeError.empty = e := by simpa [decode_nil] using h
    decide
  | cons op bs =>
    cases ho : opOf op with
    | none =>
      obtain rfl : DecodeError.reserved op = e := by simpa [decode_reserved ho] using h
      simp [illegalInfo, info_bytes_reserved op, ho]
    | some o =>
      cases hi : operandsOf o bs with
      | none =>
        obtain rfl : DecodeError.wrongLength op = e := by simpa [decode_defined ho, hi] using h
        simp [illegalInfo, info_bytes_wrongLength op, ho]
      | some i => simp [decode_defined ho, hi] at h

theorem legalResponse_ok (bs : List Byte) : legalResponse (0x00 :: bs) = true := rfl

theorem legalResponse_illegal {info : Half} (h : illegalInfo info = true) :
    legalResponse [0x01, hi8 info, lo8 info] = true := by
  rw [← cat16_hi8_lo8 info] at h
  exact h

theorem legalResponse_malformed (info : Half) : legalResponse [0x02, hi8 info, lo8 info] = true := rfl

theorem responseInv_of_none {s : State} (h : s.response = none) : ResponseInv s := by
  simp [ResponseInv, h]

theorem responseInv_of_some {s : State} {rsp : List Byte} (h : s.response = some rsp)
    (hlegal : legalResponse rsp = true) : ResponseInv s := by
  simpa [ResponseInv, h] using hlegal

/-- Whatever the response was before it, a command leaves a legal one. -/
theorem exec_establishes_responseInv {i : Instr} {s t : State} (h : exec i s = .next t) : ResponseInv t := by
  obtain ⟨u, hu, ⟨bs, hok, -⟩ | ⟨info, herr⟩⟩ := exec_response_cases i s
  · obtain rfl := Host.Outcome.next.inj (hu.symm.trans h)
    exact responseInv_of_some hok (legalResponse_ok bs)
  · obtain rfl := Host.Outcome.next.inj (hu.symm.trans h)
    exact responseInv_of_some herr (legalResponse_malformed info)

/-- Settles O56: an idle step keeps the response, a reset leaves none, and a presented byte string leaves the decoder's
error or the command's response. -/
theorem stepKeepsResponseInv : Obligations.StepKeepsResponseInv := by
  unfold Obligations.StepKeepsResponseInv
  intro s t hinv hstep
  obtain ⟨-, hs⟩ | ⟨rest, -, hs⟩ | ⟨cmd, rest, e, hp, hd, -⟩ | ⟨cmd, rest, i, -, -, hs⟩ := step_cases s
  · obtain rfl := Host.Outcome.next.inj (hs.symm.trans hstep)
    exact hinv
  · obtain rfl := Host.Outcome.next.inj (hs.symm.trans hstep)
    exact responseInv_of_none (applyReset_response _)
  · obtain rfl := Host.Outcome.next.inj ((step_of_decode_error hp hd).symm.trans hstep)
    exact responseInv_of_some rfl (legalResponse_illegal (illegalInfo_of_decode_error hd))
  · exact exec_establishes_responseInv (hs.symm.trans hstep)

/-- Settles O55: no response is pending. -/
theorem responseInvHoldsAtReset : Obligations.ResponseInvHoldsAtReset := by
  unfold Obligations.ResponseInvHoldsAtReset
  exact ⟨fun fr => responseInv_of_none rfl, responseInv_of_none rfl⟩

end Sys2Proof.Machine
end

section
/-! PROOFS. Runs (20_memory.md R48; 60_exceptions.md R175; 70_reset_and_hazards.md R202): a step takes one event, a run
of presented commands executes them in order, and after LOADFRAME nothing remembers FRAME_RESET. -/

namespace Sys2Proof.Machine

open Sys2Proof.Claims

/-! ### One step -/

theorem step_completes (s : State) : ∃ t, step s = .next t := by
  obtain ⟨-, hs⟩ | ⟨rest, -, hs⟩ | ⟨cmd, rest, e, hp, hd, -⟩ | ⟨cmd, rest, i, -, -, hs⟩ := step_cases s
  · exact ⟨_, hs⟩
  · exact ⟨_, hs⟩
  · exact ⟨_, step_of_decode_error hp hd⟩
  · rw [hs]
    exact exec_completes i _

/-- Settles O57: the event is taken before it acts, and what it does writes neither field. -/
theorem stepTakesFirstEventAndKeepsFrameReset : Obligations.StepTakesFirstEventAndKeepsFrameReset := by
  unfold Obligations.StepTakesFirstEventAndKeepsFrameReset
  intro s t hstep
  obtain ⟨hp, hs⟩ | ⟨rest, hp, hs⟩ | ⟨cmd, rest, e, hp, hd, -⟩ | ⟨cmd, rest, i, hp, -, hs⟩ := step_cases s
  · obtain rfl := Host.Outcome.next.inj (hs.symm.trans hstep)
    simp [hp]
  · obtain rfl := Host.Outcome.next.inj (hs.symm.trans hstep)
    simp [hp]
  · obtain rfl := Host.Outcome.next.inj ((step_of_decode_error hp hd).symm.trans hstep)
    simp [hp]
  · simpa [hp] using exec_keeps_port_frameReset (hs.symm.trans hstep)

/-- Settles O58: by induction on the number of steps. -/
theorem everyRunGoesOn : Obligations.EveryRunGoesOn := by
  unfold Obligations.EveryRunGoesOn
  intro k
  induction k with
  | zero => exact fun s => ⟨s, rfl⟩
  | succ k ih =>
    intro s
    obtain ⟨t, ht⟩ := step_completes s
    obtain ⟨u, hu⟩ := ih t
    exact ⟨u, (run_succ_of_step (M := core) ht).trans hu⟩

/-! ### Runs of presented commands -/

/-- The step on a presented command is the command's effect, with the rest of the port left in place. -/
theorem step_presented {i : Instr} {s t : State} {p rest : List PortEvent} (hwf : i.wf = true)
    (hp : s.port = .command (encode i) :: p) (ht : exec i { s with port := rest } = .next t) :
    step s = .next { t with port := p } := by
  rw [step_of_decode_ok hp (decode_encode hwf)]
  exact exec_port i { s with port := rest } p t ht

/-- Settles O51: by induction on the sequence; a command does not see what is presented after it. -/
theorem runOfPresentedCommandsExecutesInOrder : Obligations.RunOfPresentedCommandsExecutesInOrder := by
  unfold Obligations.RunOfPresentedCommandsExecutesInOrder
  intro is
  induction is with
  | nil =>
    intro rest s _ hp
    obtain rfl : s.port = rest := hp
    rfl
  | cons i is ih =>
    intro rest s hwf hp
    obtain ⟨hi, his⟩ := List.forall_mem_cons.1 hwf
    obtain ⟨t, ht⟩ := exec_completes i { s with port := rest }
    obtain ⟨hrest : t.port = rest, -⟩ := exec_keeps_port_frameReset ht
    rw [List.length_cons, run_succ_of_step (M := core) (step_presented hi hp ht), ih rest _ his rfl,
      execSeq_cons_of_next ht, ← hrest]

theorem wf_of_isSetter {i : Instr} (hi : isSetter i = true) : i.wf = true := by
  cases i
  case setaddr | setfunc | setregh | setregl | setlenh | setlenl | setreg | setlen => rfl
  case emit | encode | crc16 | hexenc | hexdec | decode6 => simp [isSetter] at hi

/-- Settles O54: the three steps are the expansion in order, and it writes every register. -/
theorem loadreadDefinesEveryRegisterAfterReset : Obligations.LoadreadDefinesEveryRegisterAfterReset := by
  unfold Obligations.LoadreadDefinesEveryRegisterAfterReset
  intro fr a r l
  have hwf : ∀ i ∈ (Pseudo.loadread a r l).expand, i.wf = true :=
    fun i hi => wf_of_isSetter (isSetter_of_mem_expand _ i hi)
  have hrun := runOfPresentedCommandsExecutesInOrder (Pseudo.loadread a r l).expand []
    { State.resetWith fr with port := presented (Pseudo.loadread a r l).expand } hwf (List.append_nil _).symm
  exact hrun.trans (execSeq_loadread a r l _)

/-! ### What a host sees of FRAME_RESET -/

/-- A sequence of commands keeps two states alike in registers and response (R32). -/
theorem execSeq_agrees (is : List Instr) {s u : State} (hframe : s.frame = u.frame) (hresp : s.response = u.response) :
    ∃ t v, execSeq is s = .next t ∧ execSeq is u = .next v ∧ t.response = v.response ∧ t.frame = v.frame := by
  induction is generalizing s u with
  | nil => exact ⟨s, u, rfl, rfl, hresp, hframe⟩
  | cons i is ih =>
    obtain ⟨t, ht⟩ := exec_completes i s
    obtain ⟨v, hv⟩ := exec_completes i u
    rw [execSeq_cons_of_next ht, execSeq_cons_of_next hv]
    exact ih (exec_frame_eq hframe ht hv) (exec_response_eq hframe ht hv)

/-- Settles O59: LOADFRAME leaves the same registers and response whatever FRAME_RESET is, and they stay alike. -/
theorem frameResetIsForgottenAfterLoadframe : Obligations.FrameResetIsForgottenAfterLoadframe := by
  unfold Obligations.FrameResetIsForgottenAfterLoadframe
  intro fr fr' a f r l is
  rw [execSeq_append_of_next (execSeq_loadframe a f r l _), execSeq_append_of_next (execSeq_loadframe a f r l _)]
  exact execSeq_agrees is rfl rfl

end Sys2Proof.Machine
end
